-- ==== Sys2Proof/Word.lean ====
section
/-! DEFINITION. The word types of the block and its small closed vocabularies: registers, modes, levels. -/

namespace Sys2Proof

/-- A 32-bit word: a register, a command word, an address, a frequency, a duration (R7, R9). -/
abbrev Word := BitVec 32

/-- A port identifier, 8 bits (R7, R61). -/
abbrev PortId := BitVec 8

/-- A pin index 0 to 31, the field PIN of the first command word (R61). -/
abbrev PinIdx := BitVec 5

/-- A computed cycle count, 64 bits (R7, R28, R142). -/
abbrev Count := BitVec 64

/-- The four pin modes (R12). -/
inductive Mode where
  | input
  | inputPullUp
  | output
  | outputOpenDrain
  deriving DecidableEq, Repr

/-- A logic level (R12, R129). -/
inductive Level where
  | low
  | high
  deriving DecidableEq, Repr

/-- The registers of a port that hold a stored value (R20, R26). -/
inductive StoredReg where
  | dir
  | out
  | od
  | pu
  deriving DecidableEq, Repr

/-- The five registers of a port: a stored one, or the sampled `IN` (R20). -/
inductive Reg where
  | stored (r : StoredReg)
  | input
  deriving DecidableEq, Repr

end Sys2Proof
end

