-- ==== Sys2Proof/Config.lean ====
section
/-! DEFINITION. The platform's parameters (R7, R182) as plain data, the constraints R41 puts on them, and the free input value. -/

namespace Sys2Proof

/-- What the platform fixes for one valid port (R7): its identifier, `Base(p)`, the pins it implements
(bit `i` is `PinImplemented(p, i)`) and the reset values of its four stored registers. -/
structure PortConfig where
  id          : PortId
  base        : Word
  implemented : Word
  resetDir    : Word
  resetOut    : Word
  resetOd     : Word
  resetPu     : Word
  deriving DecidableEq, Repr

/-- The parameters of R7. `ValidPort(p)` is: some entry of `ports` has the identifier `p`. They are constants of a
run (R182). A statement about every state is a statement about every value of them, as R7 asks. -/
structure Config where
  ports       : List PortConfig
  defaultFreq : Word
  deriving DecidableEq, Repr

/-- `draw()` once the samples held in the state are used up (R11, R23): a free value, one for each draw.
Nothing can evaluate it or prove a value of it (log 3). -/
opaque Config.inputDraw : Nat → Word

/-- Two ports' register ranges `[Base, Base + 0x13]` do not meet (R41). -/
def PortConfig.disjoint (a b : PortConfig) : Bool :=
  decide (a.base.toNat + 0x13 < b.base.toNat) || decide (b.base.toNat + 0x13 < a.base.toNat)

/-- `Base(p) mod 4 = 0` and `Base(p) + 0x10 <= 2^32 - 4` (R41). -/
def PortConfig.aligned (a : PortConfig) : Bool :=
  decide (a.base.toNat % 4 = 0) && decide (a.base.toNat + 0x10 ≤ 2 ^ 32 - 4)

/-- The constraints of R41, with the ports listed once each in rising order of identifier. -/
def Config.wf (c : Config) : Bool :=
  decide (c.ports.Pairwise fun a b => a.id.toNat < b.id.toNat)
    && c.ports.all PortConfig.aligned
    && decide (c.ports.Pairwise fun a b => a.disjoint b = true)

/-- The spec's own hypothetical test configuration (95_test_vectors.md section 0): ports 0 and 1, every pin
implemented, 48 MHz. DESIGN CHOICE: the reset registers are 0 (log 1, log 2). No statement rests on these values. -/
def Config.reference : Config where
  ports :=
    [{ id := 0, base := 0x10000000, implemented := BitVec.allOnes 32
       resetDir := 0, resetOut := 0, resetOd := 0, resetPu := 0 },
     { id := 1, base := 0x10000100, implemented := BitVec.allOnes 32
       resetDir := 0, resetOut := 0, resetOd := 0, resetPu := 0 }]
  defaultFreq := 48000000

end Sys2Proof
end

