-- ==== Sys2Proof/Syntax.lean ====
section
/-! DEFINITION. The commands: one constructor for each row of spec/opcode_table.json (R64). -/

namespace Sys2Proof

/-- A command with its operands. A transition opcode has one constructor for each legal source mode, as the table
has one row for each. `mode` is the MODE field where the table leaves it free (R61, R64). -/
inductive Instr where
  -- pin mode constructors (R91 to R94)
  | mkInput (port : PortId) (pin : PinIdx)
  | mkInputPu (port : PortId) (pin : PinIdx)
  | mkOutput (port : PortId) (pin : PinIdx)
  | mkOutputOd (port : PortId) (pin : PinIdx)
  -- pin mode transitions (R102 to R113)
  | intoInputFromIpu (port : PortId) (pin : PinIdx)
  | intoInputFromOut (port : PortId) (pin : PinIdx)
  | intoInputFromOod (port : PortId) (pin : PinIdx)
  | intoInputPuFromIn (port : PortId) (pin : PinIdx)
  | intoInputPuFromOut (port : PortId) (pin : PinIdx)
  | intoInputPuFromOod (port : PortId) (pin : PinIdx)
  | intoOutputFromIn (port : PortId) (pin : PinIdx)
  | intoOutputFromIpu (port : PortId) (pin : PinIdx)
  | intoOutputFromOod (port : PortId) (pin : PinIdx)
  | intoOutputOdFromIn (port : PortId) (pin : PinIdx)
  | intoOutputOdFromIpu (port : PortId) (pin : PinIdx)
  | intoOutputOdFromOut (port : PortId) (pin : PinIdx)
  -- pin input and output (R120 to R128)
  | read (port : PortId) (mode : Mode) (pin : PinIdx)
  | isHigh (port : PortId) (mode : Mode) (pin : PinIdx)
  | isLow (port : PortId) (mode : Mode) (pin : PinIdx)
  | setHigh (port : PortId) (mode : Mode) (pin : PinIdx)
  | setLow (port : PortId) (mode : Mode) (pin : PinIdx)
  | setState (port : PortId) (mode : Mode) (level : Level) (pin : PinIdx)
  | toggle (port : PortId) (pin : PinIdx)
  | isSetHigh (port : PortId) (pin : PinIdx)
  | isSetLow (port : PortId) (pin : PinIdx)
  -- register access (R81 to R84)
  | base (port : PortId)
  | regRead (port : PortId) (off : Reg)
  | regWrite (port : PortId) (off : StoredReg) (value : Word)
  | regModify (port : PortId) (off : StoredReg) (clearMask setMask : Word)
  -- delay counter (R140, R141, R145 to R147)
  | dcfgDefault
  | dcfg (hz : Word)
  | delayNs (n : Word)
  | delayUs (n : Word)
  | delayMs (n : Word)
  deriving DecidableEq, Repr

end Sys2Proof
end

