-- ==== Sys2Proof/WellFormed.lean ====
section
/-! DEFINITION. Which commands exist: the typestate of R64 and R67 as a check on the term. The other restrictions (pin
index, register, source mode of a transition) hold by the types of the fields. -/

namespace Sys2Proof

/-- The modes of `READ`, `IS_HIGH` and `IS_LOW` (R64, MODE allowed 00 and 01). -/
def Mode.inputCapable : Mode → Bool
  | .input => true
  | .inputPullUp => true
  | .output => false
  | .outputOpenDrain => false

/-- The modes of `SET_HIGH`, `SET_LOW` and `SET_STATE` (R64, MODE allowed 10 and 11). -/
def Mode.outputCapable : Mode → Bool
  | .input => false
  | .inputPullUp => false
  | .output => true
  | .outputOpenDrain => true

/-- The command is one the encoding admits: its mode is in the "MODE allowed" column of R64. -/
def Instr.wf : Instr → Bool
  | .read _ mode _ => mode.inputCapable
  | .isHigh _ mode _ => mode.inputCapable
  | .isLow _ mode _ => mode.inputCapable
  | .setHigh _ mode _ => mode.outputCapable
  | .setLow _ mode _ => mode.outputCapable
  | .setState _ mode _ _ => mode.outputCapable
  | .mkInput _ _ | .mkInputPu _ _ | .mkOutput _ _ | .mkOutputOd _ _ => true
  | .intoInputFromIpu _ _ | .intoInputFromOut _ _ | .intoInputFromOod _ _ => true
  | .intoInputPuFromIn _ _ | .intoInputPuFromOut _ _ | .intoInputPuFromOod _ _ => true
  | .intoOutputFromIn _ _ | .intoOutputFromIpu _ _ | .intoOutputFromOod _ _ => true
  | .intoOutputOdFromIn _ _ | .intoOutputOdFromIpu _ _ | .intoOutputOdFromOut _ _ => true
  | .toggle _ _ | .isSetHigh _ _ | .isSetLow _ _ => true
  | .base _ | .regRead _ _ | .regWrite _ _ _ | .regModify _ _ _ _ => true
  | .dcfgDefault | .dcfg _ | .delayNs _ | .delayUs _ | .delayMs _ => true

end Sys2Proof
end

