-- ==== Sys2Proof/Decode.lean ====
section
/-! DEFINITION. Decoding of command words (R60 to R71), the encoder written from the same tables, and the rows of
spec/opcode_table.json as mask and match. -/

namespace Sys2Proof

/-- The reasons a command is refused (R160, R162). The first six are decode's; `unsupportedPin` is `CheckPin`'s (R80). -/
inductive RefusalReason where
  | illegalOpcode
  | truncated
  | reservedFieldNonzero
  | sameModeTransition
  | modeNotPermitted
  | illegalOffset
  | unsupportedPin
  deriving DecidableEq, Repr

/-- The opcodes of R64. -/
inductive Opcode where
  | mkInput | mkInputPu | mkOutput | mkOutputOd
  | intoInput | intoInputPu | intoOutput | intoOutputOd
  | read | isHigh | isLow
  | setHigh | setLow | setState | toggle | isSetHigh | isSetLow
  | base | regRead | regWrite | regModify
  | dcfgDefault | dcfg | delayNs | delayUs | delayMs
  deriving DecidableEq, Repr

/-- All 26 opcodes, in the order of R64. -/
def Opcode.all : List Opcode :=
  [.mkInput, .mkInputPu, .mkOutput, .mkOutputOd, .intoInput, .intoInputPu, .intoOutput, .intoOutputOd]
    ++ [.read, .isHigh, .isLow, .setHigh, .setLow, .setState, .toggle, .isSetHigh, .isSetLow]
    ++ [.base, .regRead, .regWrite, .regModify, .dcfgDefault, .dcfg, .delayNs, .delayUs, .delayMs]

/-- The OP column of R64. -/
def Opcode.code : Opcode → BitVec 8
  | .mkInput => 0x01
  | .mkInputPu => 0x02
  | .mkOutput => 0x03
  | .mkOutputOd => 0x04
  | .intoInput => 0x05
  | .intoInputPu => 0x06
  | .intoOutput => 0x07
  | .intoOutputOd => 0x08
  | .read => 0x10
  | .isHigh => 0x11
  | .isLow => 0x12
  | .setHigh => 0x18
  | .setLow => 0x19
  | .setState => 0x1A
  | .toggle => 0x1B
  | .isSetHigh => 0x1C
  | .isSetLow => 0x1D
  | .base => 0x20
  | .regRead => 0x21
  | .regWrite => 0x22
  | .regModify => 0x23
  | .dcfgDefault => 0x30
  | .dcfg => 0x31
  | .delayNs => 0x32
  | .delayUs => 0x33
  | .delayMs => 0x34

/-- The opcode of a code, none where R64 assigns none (R69). -/
def Opcode.ofCode (c : BitVec 8) : Option Opcode := Opcode.all.find? fun o => o.code == c

/-- The length column of R64, in words. -/
def Opcode.len : Opcode → Nat
  | .regModify => 3
  | .regWrite | .dcfg | .delayNs | .delayUs | .delayMs => 2
  | .mkInput | .mkInputPu | .mkOutput | .mkOutputOd => 1
  | .intoInput | .intoInputPu | .intoOutput | .intoOutputOd => 1
  | .read | .isHigh | .isLow | .setHigh | .setLow | .setState | .toggle | .isSetHigh | .isSetLow => 1
  | .base | .regRead | .dcfgDefault => 1

/-- The must-be-zero column of R64 as a mask over W0. -/
def Opcode.mustBeZero : Opcode → Word
  | .mkInput | .mkInputPu | .mkOutput | .mkOutputOd => 0x0000FFE0
  | .intoInput | .intoInputPu | .intoOutput | .intoOutputOd => 0x0000FF20
  | .read | .isHigh | .isLow | .setHigh | .setLow | .toggle | .isSetHigh | .isSetLow => 0x0000FF20
  | .setState => 0x0000FF00
  | .base => 0x0000FFFF
  | .regRead | .regWrite | .regModify => 0x000000FF
  | .dcfgDefault | .dcfg | .delayNs | .delayUs | .delayMs => 0x00FFFFFF

/-! The fields of the first word (R61). -/

/-- OP, bits 31:24. -/
def fieldOp (w : Word) : BitVec 8 := w.extractLsb' 24 8

/-- PORT, bits 23:16. -/
def fieldPort (w : Word) : PortId := w.extractLsb' 16 8

/-- OFF, bits 15:8. -/
def fieldOff (w : Word) : BitVec 8 := w.extractLsb' 8 8

/-- MODE, bits 7:6. -/
def fieldMode (w : Word) : BitVec 2 := w.extractLsb' 6 2

/-- LV, bit 5. -/
def fieldLv (w : Word) : BitVec 1 := w.extractLsb' 5 1

/-- PIN, bits 4:0. -/
def fieldPin (w : Word) : PinIdx := w.extractLsb' 0 5

/-- The MODE codes (R63). -/
def Mode.code : Mode → BitVec 2
  | .input => 0b00
  | .inputPullUp => 0b01
  | .output => 0b10
  | .outputOpenDrain => 0b11

/-- The mode of a MODE code (R63). -/
def Mode.ofCode (c : BitVec 2) : Mode :=
  if c = 0b00 then .input
  else if c = 0b01 then .inputPullUp
  else if c = 0b10 then .output
  else .outputOpenDrain

/-- LV: 1 is High, 0 is Low (R61). -/
def Level.code : Level → BitVec 1
  | .low => 0
  | .high => 1

/-- The level of an LV bit (R61). -/
def Level.ofCode (c : BitVec 1) : Level := if c = 1 then .high else .low

/-- The byte offsets of the stored registers (R20). -/
def StoredReg.offset : StoredReg → BitVec 8
  | .dir => 0x00
  | .out => 0x04
  | .od => 0x0C
  | .pu => 0x10

/-- The byte offset of a register; `IN` stands at 0x08 (R20). -/
def Reg.offset : Reg → BitVec 8
  | .stored r => r.offset
  | .input => 0x08

/-- The stored register at an offset: the legal offsets of `REG_WRITE` and `REG_MODIFY` (R68). -/
def StoredReg.ofOffset (c : BitVec 8) : Option StoredReg :=
  if c = 0x00 then some .dir
  else if c = 0x04 then some .out
  else if c = 0x0C then some .od
  else if c = 0x10 then some .pu
  else none

/-- The register at an offset: the legal offsets of `REG_READ` (R68). -/
def Reg.ofOffset (c : BitVec 8) : Option Reg :=
  if c = 0x08 then some .input else (StoredReg.ofOffset c).map .stored

/-- The "MODE allowed" column of R64 for the pin I/O commands (R67, C1 of 90_conflicts.md). -/
def ioMode (o : Opcode) (mode : Mode) : Bool :=
  match o with
  | .read | .isHigh | .isLow => mode == .input || mode == .inputPullUp
  | .setHigh | .setLow | .setState => mode == .output || mode == .outputOpenDrain
  | .toggle | .isSetHigh | .isSetLow => mode == .output
  | .mkInput | .mkInputPu | .mkOutput | .mkOutputOd => true
  | .intoInput | .intoInputPu | .intoOutput | .intoOutputOd => true
  | .base | .regRead | .regWrite | .regModify => true
  | .dcfgDefault | .dcfg | .delayNs | .delayUs | .delayMs => true

/-- The command a transition opcode names for each source mode, none where the source is the target (R64, R65). -/
def transitionTo (target source : Mode) (port : PortId) (pin : PinIdx) : Option Instr :=
  match target, source with
  | .input, .input => none
  | .input, .inputPullUp => some (.intoInputFromIpu port pin)
  | .input, .output => some (.intoInputFromOut port pin)
  | .input, .outputOpenDrain => some (.intoInputFromOod port pin)
  | .inputPullUp, .input => some (.intoInputPuFromIn port pin)
  | .inputPullUp, .inputPullUp => none
  | .inputPullUp, .output => some (.intoInputPuFromOut port pin)
  | .inputPullUp, .outputOpenDrain => some (.intoInputPuFromOod port pin)
  | .output, .input => some (.intoOutputFromIn port pin)
  | .output, .inputPullUp => some (.intoOutputFromIpu port pin)
  | .output, .output => none
  | .output, .outputOpenDrain => some (.intoOutputFromOod port pin)
  | .outputOpenDrain, .input => some (.intoOutputOdFromIn port pin)
  | .outputOpenDrain, .inputPullUp => some (.intoOutputOdFromIpu port pin)
  | .outputOpenDrain, .output => some (.intoOutputOdFromOut port pin)
  | .outputOpenDrain, .outputOpenDrain => none

/-- A refusal unless the test holds. -/
def orRefuse (ok : Bool) (why : RefusalReason) (i : Instr) : Except RefusalReason Instr :=
  if ok then .ok i else .error why

/-- A refusal for a missing value. -/
def someOrRefuse {α : Type} (x : Option α) (why : RefusalReason) (f : α → Instr) : Except RefusalReason Instr :=
  match x with
  | some a => .ok (f a)
  | none => .error why

/-- The command of an opcode and its fields, or the refusal of the checks that follow the must-be-zero check:
same mode (R65), mode not permitted (R67), illegal offset (R68). -/
def Opcode.build (o : Opcode) (w0 w1 w2 : Word) : Except RefusalReason Instr :=
  let port := fieldPort w0
  let pin := fieldPin w0
  let mode := Mode.ofCode (fieldMode w0)
  let transition := fun target => someOrRefuse (transitionTo target mode port pin) .sameModeTransition id
  let io := orRefuse (ioMode o mode) .modeNotPermitted
  match o with
  | .mkInput => .ok (.mkInput port pin)
  | .mkInputPu => .ok (.mkInputPu port pin)
  | .mkOutput => .ok (.mkOutput port pin)
  | .mkOutputOd => .ok (.mkOutputOd port pin)
  | .intoInput => transition .input
  | .intoInputPu => transition .inputPullUp
  | .intoOutput => transition .output
  | .intoOutputOd => transition .outputOpenDrain
  | .read => io (.read port mode pin)
  | .isHigh => io (.isHigh port mode pin)
  | .isLow => io (.isLow port mode pin)
  | .setHigh => io (.setHigh port mode pin)
  | .setLow => io (.setLow port mode pin)
  | .setState => io (.setState port mode (Level.ofCode (fieldLv w0)) pin)
  | .toggle => io (.toggle port pin)
  | .isSetHigh => io (.isSetHigh port pin)
  | .isSetLow => io (.isSetLow port pin)
  | .base => .ok (.base port)
  | .regRead => someOrRefuse (Reg.ofOffset (fieldOff w0)) .illegalOffset fun r => .regRead port r
  | .regWrite => someOrRefuse (StoredReg.ofOffset (fieldOff w0)) .illegalOffset fun r => .regWrite port r w1
  | .regModify => someOrRefuse (StoredReg.ofOffset (fieldOff w0)) .illegalOffset fun r => .regModify port r w1 w2
  | .dcfgDefault => .ok .dcfgDefault
  | .dcfg => .ok (.dcfg w1)
  | .delayNs => .ok (.delayNs w1)
  | .delayUs => .ok (.delayUs w1)
  | .delayMs => .ok (.delayMs w1)

/-- Decode the command at the head of the remaining stream, or give the one reason it is refused. The checks go in
the order of R71 and R164: opcode, length, must-be-zero fields, MODE, offset. With no word left there is no command,
and decode answers `truncated`; `step` never asks (R71: pc is below the stream length). -/
def decode : List Word → Except RefusalReason Instr
  | [] => .error .truncated
  | w0 :: rest =>
    match Opcode.ofCode (fieldOp w0) with
    | none => .error .illegalOpcode
    | some o =>
      if rest.length + 1 < o.len then .error .truncated
      else if w0 &&& o.mustBeZero ≠ 0 then .error .reservedFieldNonzero
      else o.build w0 (rest.getD 0 0) (rest.getD 1 0)

/-! The encoder (R61, R62, R74). -/

/-- The first word with these fields (R61). -/
def packFields (op : BitVec 8) (port : PortId) (off : BitVec 8) (mode : BitVec 2) (lv : BitVec 1) (pin : PinIdx) : Word :=
  op ++ port ++ off ++ mode ++ lv ++ pin

/-- The first word of a pin command (R74): every field not given is 0. -/
def pinWord (o : Opcode) (port : PortId) (mode : Mode) (lv : Level) (pin : PinIdx) : Word :=
  packFields o.code port 0 mode.code lv.code pin

/-- The first word of a register command (R74). -/
def regWord (o : Opcode) (port : PortId) (off : BitVec 8) : Word := packFields o.code port off 0 0 0

/-- The first word of a delay command: `OP << 24` (R74). -/
def delayWord (o : Opcode) : Word := packFields o.code 0 0 0 0 0

/-- The words of a command (R61, R62, R74). -/
def encode : Instr → List Word
  | .mkInput p i => [pinWord .mkInput p .input .low i]
  | .mkInputPu p i => [pinWord .mkInputPu p .input .low i]
  | .mkOutput p i => [pinWord .mkOutput p .input .low i]
  | .mkOutputOd p i => [pinWord .mkOutputOd p .input .low i]
  | .intoInputFromIpu p i => [pinWord .intoInput p .inputPullUp .low i]
  | .intoInputFromOut p i => [pinWord .intoInput p .output .low i]
  | .intoInputFromOod p i => [pinWord .intoInput p .outputOpenDrain .low i]
  | .intoInputPuFromIn p i => [pinWord .intoInputPu p .input .low i]
  | .intoInputPuFromOut p i => [pinWord .intoInputPu p .output .low i]
  | .intoInputPuFromOod p i => [pinWord .intoInputPu p .outputOpenDrain .low i]
  | .intoOutputFromIn p i => [pinWord .intoOutput p .input .low i]
  | .intoOutputFromIpu p i => [pinWord .intoOutput p .inputPullUp .low i]
  | .intoOutputFromOod p i => [pinWord .intoOutput p .outputOpenDrain .low i]
  | .intoOutputOdFromIn p i => [pinWord .intoOutputOd p .input .low i]
  | .intoOutputOdFromIpu p i => [pinWord .intoOutputOd p .inputPullUp .low i]
  | .intoOutputOdFromOut p i => [pinWord .intoOutputOd p .output .low i]
  | .read p mode i => [pinWord .read p mode .low i]
  | .isHigh p mode i => [pinWord .isHigh p mode .low i]
  | .isLow p mode i => [pinWord .isLow p mode .low i]
  | .setHigh p mode i => [pinWord .setHigh p mode .low i]
  | .setLow p mode i => [pinWord .setLow p mode .low i]
  | .setState p mode lv i => [pinWord .setState p mode lv i]
  | .toggle p i => [pinWord .toggle p .output .low i]
  | .isSetHigh p i => [pinWord .isSetHigh p .output .low i]
  | .isSetLow p i => [pinWord .isSetLow p .output .low i]
  | .base p => [regWord .base p 0]
  | .regRead p off => [regWord .regRead p off.offset]
  | .regWrite p off v => [regWord .regWrite p off.offset, v]
  | .regModify p off clr set => [regWord .regModify p off.offset, clr, set]
  | .dcfgDefault => [delayWord .dcfgDefault]
  | .dcfg hz => [delayWord .dcfg, hz]
  | .delayNs n => [delayWord .delayNs, n]
  | .delayUs n => [delayWord .delayUs, n]
  | .delayMs n => [delayWord .delayMs, n]

/-- Decode a whole stream, command after command (R60), each command as long as its encoding. The first argument
bounds the number of commands; a stream's length is always enough. -/
def decodeAll : Nat → List Word → Except RefusalReason (List Instr)
  | _, [] => .ok []
  | 0, _ :: _ => .error .truncated
  | fuel + 1, w0 :: rest =>
    match decode (w0 :: rest) with
    | .error why => .error why
    | .ok i =>
      match decodeAll fuel ((w0 :: rest).drop (encode i).length) with
      | .error why => .error why
      | .ok is => .ok (i :: is)

/-! The opcode table (R71). -/

/-- A row of spec/opcode_table.json: the bits of W0 it fixes and their values. -/
structure OpcodeRow where
  mask  : Word
  value : Word
  deriving DecidableEq, Repr

/-- The row selects this first word. -/
def OpcodeRow.selects (row : OpcodeRow) (w0 : Word) : Bool := w0 &&& row.mask == row.value

/-- Rows of the constructors and transitions, in the table's order. -/
def opcodeRowsModes : List OpcodeRow :=
  [⟨0xFF00FFE0, 0x01000000⟩, ⟨0xFF00FFE0, 0x02000000⟩, ⟨0xFF00FFE0, 0x03000000⟩, ⟨0xFF00FFE0, 0x04000000⟩]
    ++ [⟨0xFF00FFE0, 0x05000040⟩, ⟨0xFF00FFE0, 0x05000080⟩, ⟨0xFF00FFE0, 0x050000C0⟩]
    ++ [⟨0xFF00FFE0, 0x06000000⟩, ⟨0xFF00FFE0, 0x06000080⟩, ⟨0xFF00FFE0, 0x060000C0⟩]
    ++ [⟨0xFF00FFE0, 0x07000000⟩, ⟨0xFF00FFE0, 0x07000040⟩, ⟨0xFF00FFE0, 0x070000C0⟩]
    ++ [⟨0xFF00FFE0, 0x08000000⟩, ⟨0xFF00FFE0, 0x08000040⟩, ⟨0xFF00FFE0, 0x08000080⟩]

/-- Rows of the pin I/O, register and delay commands, in the table's order. -/
def opcodeRowsOther : List OpcodeRow :=
  [⟨0xFF00FFA0, 0x10000000⟩, ⟨0xFF00FFA0, 0x11000000⟩, ⟨0xFF00FFA0, 0x12000000⟩]
    ++ [⟨0xFF00FFA0, 0x18000080⟩, ⟨0xFF00FFA0, 0x19000080⟩, ⟨0xFF00FF80, 0x1A000080⟩]
    ++ [⟨0xFF00FFE0, 0x1B000080⟩, ⟨0xFF00FFE0, 0x1C000080⟩, ⟨0xFF00FFE0, 0x1D000080⟩]
    ++ [⟨0xFF00FFFF, 0x20000000⟩, ⟨0xFF0000FF, 0x21000000⟩, ⟨0xFF0000FF, 0x22000000⟩, ⟨0xFF0000FF, 0x23000000⟩]
    ++ [⟨0xFFFFFFFF, 0x30000000⟩, ⟨0xFFFFFFFF, 0x31000000⟩, ⟨0xFFFFFFFF, 0x32000000⟩]
    ++ [⟨0xFFFFFFFF, 0x33000000⟩, ⟨0xFFFFFFFF, 0x34000000⟩]

/-- spec/opcode_table.json, match and mask of its 34 rows. -/
def opcodeRows : List OpcodeRow := opcodeRowsModes ++ opcodeRowsOther

/-! The host's question. -/

/-- The three words of an instruction whose bits are `w`, bit 0 the least significant of the first word; bits from
`nbits` up are 0. Three words is the longest command (R60). -/
def tableWords (nbits w : Nat) : List Word :=
  let bits := w % 2 ^ nbits
  [BitVec.ofNat 32 bits, BitVec.ofNat 32 (bits / 2 ^ 32), BitVec.ofNat 32 (bits / 2 ^ 64)]

/-- The command the decoder reads from those words, none where it refuses them. -/
def decodeTableWord (nbits w : Nat) : Option Instr :=
  match decode (tableWords nbits w) with
  | .ok i => some i
  | .error _ => none

end Sys2Proof
end

