-- ==== Sys2Proof/Machine/State.lean ====
section
/-! DEFINITION. The state of the block (R20 to R33) as plain data, its reset, and the reasons a step can stop. -/

namespace Sys2Proof.Machine

/-- One port's stored registers `DIR`, `OUT`, `OD`, `PU` (R20 to R25). `IN` stores nothing (R23). -/
structure PortRegs where
  dir : Word
  out : Word
  od  : Word
  pu  : Word
  deriving DecidableEq, Repr

/-- The register sets that differ from their reset values, keyed by port. In canonical form (`State.regsCanonical`) the ports
rise strictly, are valid, and no listed set equals the port's reset set; a port not listed holds its reset set. This
is the whole content of the block's address space (R40), which has no other storage. -/
abbrev RegFile := List (PortId × PortRegs)

/-- A record of the event history (R33). `off` is written by its register; `Reg.offset` gives the byte offset. -/
inductive Event where
  | rd (port : PortId) (off : Reg) (value : Word)
  | wr (port : PortId) (off : StoredReg) (value : Word)
  | res (value : Word)
  | abort (port : PortId)
  deriving DecidableEq, Repr

/-- STATUS (R29): `Run`, `Aborted(InvalidPort, p)`, `Refused(reason)`, `Faulted(DelayUnconfigured)`. -/
inductive Status where
  | run
  | abortedInvalidPort (port : PortId)
  | refused (reason : RefusalReason)
  | faultedDelayUnconfigured
  deriving DecidableEq, Repr

/-- Why `step` has no next state. No command's meaning raises one of these: an abort, a refusal and
`DelayUnconfigured` are values of STATUS, reached by a next state (R161 to R163). -/
inductive Fault where
  /-- Raised by `step` when STATUS is not `Run`: only reset leaves such a state (R29, R165). Safe: the block is stuck. -/
  | stopped
  /-- Raised by `step` when STATUS is `Run` and pc is the stream length: the run is complete (R181). Safe. -/
  | runComplete
  /-- Raised by `step` when pc is above the stream length, which no run reaches (log 5). Safe: the model stops. -/
  | pcOutsideStream
  deriving DecidableEq, Repr

/-- Why an instruction has no meaning here. Every instruction has one, so nothing raises it. -/
inductive Refusal where
  /-- Would be raised by an arm of `exec` left without a meaning; there is none. Safe: the model stops. -/
  | notModelled (mnemonic : String)
  deriving DecidableEq, Repr

/-- The whole state of the block (R36): the platform's constants, the command stream and the state of R20 to R33,
and the environment's inputs that stand for `draw()` (R23). -/
structure State where
  /-- The platform's parameters (R7); no command changes them (R182). -/
  config  : Config
  /-- The command stream S (R60); no command changes it (R53). -/
  stream  : List Word
  /-- The command index, in words (R31). -/
  pc      : Nat
  /-- STATUS (R29). -/
  status  : Status
  /-- RESULT (R30). -/
  result  : Option Word
  /-- The stored port registers (R20 to R26). -/
  regs    : RegFile
  /-- FREQ (R27). -/
  freq    : Option Word
  /-- CNT (R28). -/
  cnt     : Count
  /-- Spin iterations since reset (R32). -/
  ticks   : Nat
  /-- The event history, oldest first (R33). -/
  events  : List Event
  /-- The model's own field (log 3): input samples the environment has fixed, next one first. -/
  samples : List Word
  /-- The model's own field (log 3): how many draws have been made. -/
  draws   : Nat
  deriving DecidableEq, Repr

/-- The state right after reset on a platform `c` (R180): stored registers at the platform's reset values (nothing
listed), STATUS `Run`, pc 0, no result, no engine, nothing counted, no history. The stream is loaded from outside
(log 4). -/
def State.resetWith (c : Config) : State where
  config  := c
  stream  := []
  pc      := 0
  status  := .run
  result  := none
  regs    := []
  freq    := none
  cnt     := 0
  ticks   := 0
  events  := []
  samples := []
  draws   := 0

/-- Reset on the spec's own test configuration (log 1). Statements about reset are about `State.resetWith c`. -/
def State.reset : State := State.resetWith Config.reference

end Sys2Proof.Machine
end

