-- ==== Sys2Proof/Machine/Operands.lean ====
section
/-! DEFINITION. Operands: the pin mask, the port and pin a command names, and what the platform says about a port. -/

namespace Sys2Proof.Machine

/-- `M(i)`: the word with only bit `i` set (R10). -/
def pinMask (i : PinIdx) : Word := (1 : Word) <<< i.toNat

end Sys2Proof.Machine

namespace Sys2Proof

/-- The platform's entry for a port. -/
def Config.portConfig (c : Config) (p : PortId) : Option PortConfig := c.ports.find? fun q => q.id == p

/-- `ValidPort(p)` (R7). -/
def Config.validPort (c : Config) (p : PortId) : Bool := (c.portConfig p).isSome

/-- `Base(p)`, defined where the port is valid (R7, R41). DESIGN CHOICE: 0 elsewhere, which no command reads (R80, log 11). -/
def Config.baseOf (c : Config) (p : PortId) : Word :=
  match c.portConfig p with
  | some q => q.base
  | none => 0

/-- The word whose bit `i` is `PinImplemented(p, i)`, to which R7 gives a value for a valid port. DESIGN CHOICE: 0, no pin, for
any other port, which no command reads (R80, log 11). -/
def Config.implemented (c : Config) (p : PortId) : Word :=
  match c.portConfig p with
  | some q => q.implemented
  | none => 0

/-- `PinImplemented(p, i)` (R7); false for a port that is not valid (log 11). -/
def Config.pinImplemented (c : Config) (p : PortId) (i : PinIdx) : Bool := (c.implemented p).getLsbD i.toNat

/-- Every pin of the port is implemented: the spec's choice, under which R26 holds without exception. False for a port that
is not valid (log 11). -/
def Config.fullPort (c : Config) (p : PortId) : Bool := c.implemented p == BitVec.allOnes 32

/-- The address of a register: `Base(p) + off`, a 32-bit sum (R42). -/
def Config.regAddress (c : Config) (p : PortId) (off : Reg) : Word := c.baseOf p + off.offset.setWidth 32

/-- The port's register set at reset: `RESET_DIR(p)`, `RESET_OUT(p)`, `RESET_OD(p)`, `RESET_PU(p)` (R7, R180). DESIGN CHOICE:
zeros for a port that is not valid, which no command reads (R80, log 11). -/
def Config.resetRegs (c : Config) (p : PortId) : Machine.PortRegs :=
  match c.portConfig p with
  | some q => { dir := q.resetDir, out := q.resetOut, od := q.resetOd, pu := q.resetPu }
  | none => { dir := 0, out := 0, od := 0, pu := 0 }

/-- The port a command names, none for the delay commands (R61, R160). -/
def Instr.port? : Instr → Option PortId
  | .mkInput p _ | .mkInputPu p _ | .mkOutput p _ | .mkOutputOd p _ => some p
  | .intoInputFromIpu p _ | .intoInputFromOut p _ | .intoInputFromOod p _ => some p
  | .intoInputPuFromIn p _ | .intoInputPuFromOut p _ | .intoInputPuFromOod p _ => some p
  | .intoOutputFromIn p _ | .intoOutputFromIpu p _ | .intoOutputFromOod p _ => some p
  | .intoOutputOdFromIn p _ | .intoOutputOdFromIpu p _ | .intoOutputOdFromOut p _ => some p
  | .read p _ _ | .isHigh p _ _ | .isLow p _ _ => some p
  | .setHigh p _ _ | .setLow p _ _ | .setState p _ _ _ => some p
  | .toggle p _ | .isSetHigh p _ | .isSetLow p _ => some p
  | .base p | .regRead p _ | .regWrite p _ _ | .regModify p _ _ _ => some p
  | .dcfgDefault | .dcfg _ | .delayNs _ | .delayUs _ | .delayMs _ => none

/-- The pin a pin command names: the commands that call `CheckPin` (R80, R90, R100, 43_pin_io.md). -/
def Instr.pin? : Instr → Option PinIdx
  | .mkInput _ i | .mkInputPu _ i | .mkOutput _ i | .mkOutputOd _ i => some i
  | .intoInputFromIpu _ i | .intoInputFromOut _ i | .intoInputFromOod _ i => some i
  | .intoInputPuFromIn _ i | .intoInputPuFromOut _ i | .intoInputPuFromOod _ i => some i
  | .intoOutputFromIn _ i | .intoOutputFromIpu _ i | .intoOutputFromOod _ i => some i
  | .intoOutputOdFromIn _ i | .intoOutputOdFromIpu _ i | .intoOutputOdFromOut _ i => some i
  | .read _ _ i | .isHigh _ _ i | .isLow _ _ i => some i
  | .setHigh _ _ i | .setLow _ _ i | .setState _ _ _ i => some i
  | .toggle _ i | .isSetHigh _ i | .isSetLow _ i => some i
  | .base _ | .regRead _ _ | .regWrite _ _ _ | .regModify _ _ _ _ => none
  | .dcfgDefault | .dcfg _ | .delayNs _ | .delayUs _ | .delayMs _ => none

/-- The opcode of a command, whose length (R64) is what pc advances by (R31). -/
def Instr.opcode : Instr → Opcode
  | .mkInput _ _ => .mkInput
  | .mkInputPu _ _ => .mkInputPu
  | .mkOutput _ _ => .mkOutput
  | .mkOutputOd _ _ => .mkOutputOd
  | .intoInputFromIpu _ _ | .intoInputFromOut _ _ | .intoInputFromOod _ _ => .intoInput
  | .intoInputPuFromIn _ _ | .intoInputPuFromOut _ _ | .intoInputPuFromOod _ _ => .intoInputPu
  | .intoOutputFromIn _ _ | .intoOutputFromIpu _ _ | .intoOutputFromOod _ _ => .intoOutput
  | .intoOutputOdFromIn _ _ | .intoOutputOdFromIpu _ _ | .intoOutputOdFromOut _ _ => .intoOutputOd
  | .read _ _ _ => .read
  | .isHigh _ _ _ => .isHigh
  | .isLow _ _ _ => .isLow
  | .setHigh _ _ _ => .setHigh
  | .setLow _ _ _ => .setLow
  | .setState _ _ _ _ => .setState
  | .toggle _ _ => .toggle
  | .isSetHigh _ _ => .isSetHigh
  | .isSetLow _ _ => .isSetLow
  | .base _ => .base
  | .regRead _ _ => .regRead
  | .regWrite _ _ _ => .regWrite
  | .regModify _ _ _ _ => .regModify
  | .dcfgDefault => .dcfgDefault
  | .dcfg _ => .dcfg
  | .delayNs _ => .delayNs
  | .delayUs _ => .delayUs
  | .delayMs _ => .delayMs

end Sys2Proof
end

