-- ==== Sys2Proof/Machine/Flags.lean ====
section
/-! DEFINITION. The block has no flags or condition codes (R36). What its commands compute of that kind is a level or a
truth value for RESULT (R12, R120, R129), the codes of the outcomes (R160), and the encoded mode of a pin (R34). -/

namespace Sys2Proof.Machine

/-- `Level.toBool` (R12). -/
def levelToBool : Level → Bool
  | .low => false
  | .high => true

/-- `Level.ofBool` (R12). -/
def levelOfBool (b : Bool) : Level := if b then .high else .low

/-- A truth value as RESULT holds it: 1 or 0 (R129). -/
def boolToWord (b : Bool) : Word := if b then 1 else 0

/-- The level of pin `i` in a register value: High if `(t & M(i)) != 0` (R120). -/
def levelOf (t : Word) (i : PinIdx) : Level := if t &&& pinMask i ≠ 0 then .high else .low

/-- The class and reason code of an outcome; none while STATUS is `Run` (R160). -/
def Status.code : Status → Option (BitVec 8)
  | .run => none
  | .abortedInvalidPort _ => some 0x01
  | .refused .illegalOpcode => some 0x10
  | .refused .truncated => some 0x11
  | .refused .reservedFieldNonzero => some 0x12
  | .refused .sameModeTransition => some 0x13
  | .refused .modeNotPermitted => some 0x14
  | .refused .illegalOffset => some 0x15
  | .refused .unsupportedPin => some 0x16
  | .faultedDelayUnconfigured => some 0x20

/-- The bits of one pin in `DIR`, `PU` and `OD` (R34). -/
structure PinBits where
  dir : Bool
  pu  : Bool
  od  : Bool
  deriving DecidableEq, Repr

/-- The encoded mode of the triple, none where it is inconsistent (R34). -/
def PinBits.mode (b : PinBits) : Option Mode :=
  match b.dir, b.pu, b.od with
  | false, false, false => some .input
  | false, true, false => some .inputPullUp
  | true, false, false => some .output
  | true, false, true => some .outputOpenDrain
  | false, false, true => none
  | false, true, true => none
  | true, true, false => none
  | true, true, true => none

/-- `Consistent(p, i)`: not (PU and DIR), not (PU and OD), and OD implies DIR (R34). -/
def PinBits.consistent (b : PinBits) : Bool := !(b.pu && b.dir) && !(b.pu && b.od) && (!b.od || b.dir)

end Sys2Proof.Machine
end

