-- ==== Sys2Proof/Machine/Ops.lean ====
section
/-! DEFINITION. The operations every command is made of: the register file, input draws, the volatile accesses RegRead and
RegWrite, the masked modify, RESULT, the spin, and the ends of a command: completing, aborting, refusing, faulting. -/

namespace Sys2Proof.Machine

/-! The register file. -/

/-- Read one register of a set. -/
def PortRegs.get (v : PortRegs) : StoredReg → Word
  | .dir => v.dir
  | .out => v.out
  | .od => v.od
  | .pu => v.pu

/-- Replace one register of a set. -/
def PortRegs.set (v : PortRegs) (r : StoredReg) (w : Word) : PortRegs :=
  match r with
  | .dir => { v with dir := w }
  | .out => { v with out := w }
  | .od => { v with od := w }
  | .pu => { v with pu := w }

/-- The listed register set of a port. -/
def regFileGet (f : RegFile) (p : PortId) : Option PortRegs := f.lookup p

/-- Put a port's set at its place in the rising order. -/
def regFileInsert (p : PortId) (v : PortRegs) : RegFile → RegFile
  | [] => [(p, v)]
  | (q, w) :: rest => if p.toNat < q.toNat then (p, v) :: (q, w) :: rest else (q, w) :: regFileInsert p v rest

/-- Give port `p` the set `v`, where an unlisted `p` reads as `unlisted`: the entry goes away when the two are equal. -/
def regFilePut (p : PortId) (v unlisted : PortRegs) (f : RegFile) : RegFile :=
  let others := f.filter fun e => e.1 != p
  if v = unlisted then others else regFileInsert p v others

/-- The canonical form: ports rise strictly, each is valid, none holds its reset set. -/
def State.regsCanonical (s : State) : Bool :=
  decide (s.regs.Pairwise fun a b => a.1.toNat < b.1.toNat)
    && s.regs.all fun e => s.config.validPort e.1 && decide (e.2 ≠ s.config.resetRegs e.1)

/-- The register set of a port: the stored one, or the reset set if nothing else has been stored (R26). -/
def State.portRegs (s : State) (p : PortId) : PortRegs := (regFileGet s.regs p).getD (s.config.resetRegs p)

/-- `DIR[p]`, `OUT[p]`, `OD[p]`, `PU[p]` (R11): the stored value of a register. -/
def State.stored (s : State) (p : PortId) (r : StoredReg) : Word := (s.portRegs p).get r

/-- `DIR[p] <- v` and its like (R11): all 32 bits are stored (R26). -/
def State.store (p : PortId) (r : StoredReg) (v : Word) (s : State) : State :=
  { s with regs := regFilePut p ((s.portRegs p).set r v) (s.config.resetRegs p) s.regs }

/-- The bits of pin `i` that its encoded mode depends on (R34). -/
def State.pinBits (s : State) (p : PortId) (i : PinIdx) : PinBits where
  dir := (s.stored p .dir).getLsbD i.toNat
  pu  := (s.stored p .pu).getLsbD i.toNat
  od  := (s.stored p .od).getLsbD i.toNat

/-- The encoded mode of pin `(p, i)` (R34). -/
def State.encodedMode (s : State) (p : PortId) (i : PinIdx) : Option Mode := (s.pinBits p i).mode

/-! Input draws. -/

/-- What `draw()` answers now: the environment's next fixed sample, or the free value (R11, R23, log 3). -/
def State.drawValue (s : State) : Word :=
  match s.samples with
  | v :: _ => v
  | [] => Config.inputDraw s.draws

/-- A draw has been made: the next one is another (R23). -/
def State.afterDraw (s : State) : State := { s with samples := s.samples.tail, draws := s.draws + 1 }

/-! Volatile accesses. -/

/-- Append one record to the history (R33). -/
def State.log (e : Event) (s : State) : State := { s with events := s.events ++ [e] }

/-- The read needs a draw: always for `IN` (R23), and for a stored register when some pin of the port is missing (R26). -/
def State.readDraws (s : State) (p : PortId) (off : Reg) : Bool :=
  match off with
  | .input => true
  | .stored _ => !s.config.fullPort p

/-- The value a read returns (R46): the draw for `IN` (R23); for a stored register the stored value, where the bits of
pins the platform lacks are drawn (R26, log 6). -/
def State.readValue (s : State) (p : PortId) (off : Reg) : Word :=
  match off with
  | .input => s.drawValue
  | .stored r =>
    if s.config.fullPort p then s.stored p r
    else (s.stored p r &&& s.config.implemented p) ||| (s.drawValue &&& ~~~ s.config.implemented p)

/-- `RegRead(p, off)` (R11, R45, R47): the value, and the state with the read recorded. -/
def regRead (p : PortId) (off : Reg) (s : State) : Word × State :=
  let v := s.readValue p off
  let s' := if s.readDraws p off then s.afterDraw else s
  (v, s'.log (.rd p off v))

/-- `RegWrite(p, off, v)` (R11, R45, R47): store the word and record the write. -/
def regWrite (p : PortId) (r : StoredReg) (v : Word) (s : State) : State := (s.store p r v).log (.wr p r v)

/-- `(t & ~clr) | set`: the clear first, the set second (R84). -/
def maskedUpdate (t clr set : Word) : Word := (t &&& ~~~ clr) ||| set

/-- `Modify(p, off, clr, set)`: one read, then one write, always both (R49, R84). -/
def regModify (p : PortId) (r : StoredReg) (clr set : Word) (s : State) : State :=
  let (t, s') := regRead p (.stored r) s
  regWrite p r (maskedUpdate t clr set) s'

/-- `Modify(p, off, M(i), 0)`. -/
def clearPin (p : PortId) (r : StoredReg) (i : PinIdx) (s : State) : State := regModify p r (pinMask i) 0 s

/-- `Modify(p, off, 0, M(i))`. -/
def setPin (p : PortId) (r : StoredReg) (i : PinIdx) (s : State) : State := regModify p r 0 (pinMask i) s

/-! Access by address (R11, R42): computed views of the port registers. -/

/-- The five registers of a port. -/
def allRegs : List Reg := [.stored .dir, .stored .out, .input, .stored .od, .stored .pu]

/-- The register at a byte address, none where the address space holds nothing (R40, R48). -/
def State.registerAt (s : State) (addr : Word) : Option (PortId × Reg) :=
  s.config.ports.findSome? fun q =>
    (allRegs.find? fun off => s.config.regAddress q.id off == addr).map fun off => (q.id, off)

/-- `MemRead(addr, 4)` (R11, R42); none at an address with no register. -/
def memRead (addr : Word) (s : State) : Option (Word × State) :=
  (s.registerAt addr).map fun r => regRead r.1 r.2 s

/-- `MemWrite(addr, 4, v)` (R11, R42); none at an address with no register, and at `IN`, which takes no write (R68). -/
def memWrite (addr : Word) (v : Word) (s : State) : Option State :=
  match s.registerAt addr with
  | some (p, .stored r) => some (regWrite p r v s)
  | some (_, .input) => none
  | none => none

/-! The ends of a command. -/

/-- `RESULT <- v ; events += Res(v)` (R30, R81). -/
def setResult (v : Word) (s : State) : State := { s with result := some v }.log (.res v)

/-- `pc <- pc + len` (R11, R31). -/
def advance (len : Nat) (s : State) : State := { s with pc := s.pc + len }

/-- `raise Abort(InvalidPort, p)` (R161): pc stays, nothing else changes. -/
def abortInvalidPort (p : PortId) (s : State) : State := { s with status := .abortedInvalidPort p }.log (.abort p)

/-- `refuse reason` (R162): only STATUS changes. -/
def refuse (reason : RefusalReason) (s : State) : State := { s with status := .refused reason }

/-- `raise DelayUnconfigured` (R163): only STATUS changes. -/
def faultDelayUnconfigured (s : State) : State := { s with status := .faultedDelayUnconfigured }

/-- `BaseAddress(p)` before the body of a command that names a port (R80): an invalid port aborts with no access. -/
def onPort (p : PortId) (body : State → State) (s : State) : State :=
  if s.config.validPort p then body s else abortInvalidPort p s

/-- `CheckPin(p, i)` before the body of a pin command (R80). -/
def onPin (p : PortId) (i : PinIdx) (body : State → State) (s : State) : State :=
  onPort p (fun s => if s.config.pinImplemented p i then body s else refuse .unsupportedPin s) s

/-- Every command ends in a next state (R160): completing, aborting, refusing and faulting are all recorded in STATUS. -/
def done (s : State) : Host.Outcome State Fault Refusal := .next s

/-! The spin (R144). -/

/-- `a -sat 1` (R9). -/
def satDec (c : Count) : Count := if 1 ≤ c.toNat then c - 1 else 0

/-- One iteration's no-effect instruction (R144). -/
def tick (s : State) : State := { s with ticks := s.ticks + 1 }

/-- The loop of R144, at most `fuel` iterations. -/
def spinLoop : Nat → State → State
  | 0, s => s
  | fuel + 1, s => if s.cnt = 0 then s else spinLoop fuel { tick s with cnt := satDec s.cnt }

/-- `Spin(c)` as R144 writes it: load CNT, then loop. -/
def spinByLoop (c : Count) (s : State) : State := spinLoop c.toNat { s with cnt := c }

/-- `Spin(c)` as one step, as R144 allows: c more ticks, CNT 0. -/
def spin (c : Count) (s : State) : State := { s with ticks := s.ticks + c.toNat, cnt := 0 }

/-- `n` spins of `c`, one after another, as R147 writes them. -/
def spinTimesByLoop : Nat → Count → State → State
  | 0, _, s => s
  | n + 1, c, s => spinTimesByLoop n c (spinByLoop c s)

/-- `n` spins of `c` as one step. No spin leaves CNT as it was (R147). -/
def spinTimes (n : Nat) (c : Count) (s : State) : State :=
  if n = 0 then s else { s with ticks := s.ticks + n * c.toNat, cnt := 0 }

end Sys2Proof.Machine
end

