-- ==== Sys2Proof/Machine/Delay.lean ====
section
/-! DEFINITION. The delay counter (44_delay.md, R140 to R147). -/

namespace Sys2Proof.Machine

/-- `CyclesNs(n, f)`: the exact 64-bit product, divided by 10^9, floor (R142). -/
def cyclesNs (n f : Word) : Count := (n.setWidth 64 * f.setWidth 64) / 1000000000

/-- `CyclesUs(n, f)`: the exact 64-bit product, divided by 10^6, floor (R142). -/
def cyclesUs (n f : Word) : Count := (n.setWidth 64 * f.setWidth 64) / 1000000

/-- `Clamp(c) = max(c, 1)` (R143). -/
def clampCount (c : Count) : Count := if c = 0 then 1 else c

/-- The frequency snapshot, or the machine fault where no engine has been constructed (R145 to R147, R163). -/
def withEngine (body : Word → State → State) (s : State) : State :=
  match s.freq with
  | some f => body f s
  | none => faultDelayUnconfigured s

/-- `DCFG_DEFAULT` (R140). -/
def execDcfgDefault (s : State) : Host.Outcome State Fault Refusal :=
  done (advance 1 { s with freq := some s.config.defaultFreq })

/-- `DCFG` (R141): any frequency, 0 too. -/
def execDcfg (hz : Word) (s : State) : Host.Outcome State Fault Refusal :=
  done (advance 2 { s with freq := some hz })

/-- `DELAY_NS` (R145). -/
def execDelayNs (n : Word) (s : State) : Host.Outcome State Fault Refusal :=
  done (withEngine (fun f s => advance 2 (spin (clampCount (cyclesNs n f)) s)) s)

/-- `DELAY_US` (R146). -/
def execDelayUs (n : Word) (s : State) : Host.Outcome State Fault Refusal :=
  done (withEngine (fun f s => advance 2 (spin (clampCount (cyclesUs n f)) s)) s)

/-- `DELAY_MS` (R147): n separate delays of 1000 us, with the truncation of each kept. -/
def execDelayMs (n : Word) (s : State) : Host.Outcome State Fault Refusal :=
  done (withEngine (fun f s => advance 2 (spinTimes n.toNat (clampCount (cyclesUs 1000 f)) s)) s)

end Sys2Proof.Machine
end

