-- ==== Sys2Proof/Machine/PinConstructors.lean ====
section
/-! DEFINITION. Pin mode constructors (41_pin_constructors.md, R90 to R94). -/

namespace Sys2Proof.Machine

/-- The Modify steps of the constructor for a mode, in the order of R91 to R94 and nothing else (R90). -/
def construct (mode : Mode) (p : PortId) (i : PinIdx) (s : State) : State :=
  match mode with
  | .input => clearPin p .dir i s
  | .inputPullUp => setPin p .pu i (clearPin p .dir i s)
  | .output => setPin p .dir i s
  | .outputOpenDrain => setPin p .od i (setPin p .dir i s)

/-- The common frame of the constructors (R90). -/
def constructor (mode : Mode) (p : PortId) (i : PinIdx) (s : State) : State :=
  onPin p i (fun s => advance 1 (construct mode p i s)) s

/-- `MK_INPUT` (R91). -/
def execMkInput (p : PortId) (i : PinIdx) (s : State) : Host.Outcome State Fault Refusal :=
  done (constructor .input p i s)

/-- `MK_INPUT_PU` (R92). -/
def execMkInputPu (p : PortId) (i : PinIdx) (s : State) : Host.Outcome State Fault Refusal :=
  done (constructor .inputPullUp p i s)

/-- `MK_OUTPUT` (R93). -/
def execMkOutput (p : PortId) (i : PinIdx) (s : State) : Host.Outcome State Fault Refusal :=
  done (constructor .output p i s)

/-- `MK_OUTPUT_OD` (R94). -/
def execMkOutputOd (p : PortId) (i : PinIdx) (s : State) : Host.Outcome State Fault Refusal :=
  done (constructor .outputOpenDrain p i s)

end Sys2Proof.Machine
end

