-- ==== Sys2Proof/Machine/PinIO.lean ====
section
/-! DEFINITION. Pin input and output commands (43_pin_io.md, R120 to R128). -/

namespace Sys2Proof.Machine

/-- One read of a register and pin `i`'s level in it; RESULT is a truth value of that level (R120, R127, R129). -/
def testPin (p : PortId) (off : Reg) (i : PinIdx) (test : Level → Bool) (s : State) : State :=
  onPin p i (fun s => let (t, s') := regRead p off s; advance 1 (setResult (boolToWord (test (levelOf t i))) s')) s

/-- The steps of `SET_HIGH` and `SET_LOW`: OUT[i] takes the level (R123, R124). -/
def drivePin (p : PortId) (i : PinIdx) (level : Level) (s : State) : State :=
  match level with
  | .high => setPin p .out i s
  | .low => clearPin p .out i s

/-- `READ` (R120): 1 for High. -/
def execRead (p : PortId) (i : PinIdx) (s : State) : Host.Outcome State Fault Refusal :=
  done (testPin p .input i levelToBool s)

/-- `IS_HIGH` (R121): the steps of `READ`. -/
def execIsHigh (p : PortId) (i : PinIdx) (s : State) : Host.Outcome State Fault Refusal :=
  done (testPin p .input i (fun l => l == .high) s)

/-- `IS_LOW` (R122): the steps of `READ`, 1 for Low. -/
def execIsLow (p : PortId) (i : PinIdx) (s : State) : Host.Outcome State Fault Refusal :=
  done (testPin p .input i (fun l => l == .low) s)

/-- `SET_HIGH` (R123). -/
def execSetHigh (p : PortId) (i : PinIdx) (s : State) : Host.Outcome State Fault Refusal :=
  done (onPin p i (fun s => advance 1 (drivePin p i .high s)) s)

/-- `SET_LOW` (R124). -/
def execSetLow (p : PortId) (i : PinIdx) (s : State) : Host.Outcome State Fault Refusal :=
  done (onPin p i (fun s => advance 1 (drivePin p i .low s)) s)

/-- `SET_STATE` (R125): the steps of `SET_HIGH` or of `SET_LOW`. -/
def execSetState (p : PortId) (level : Level) (i : PinIdx) (s : State) : Host.Outcome State Fault Refusal :=
  done (onPin p i (fun s => advance 1 (drivePin p i level s)) s)

/-- `TOGGLE` (R126): read OUT, write it back with bit i inverted. -/
def execToggle (p : PortId) (i : PinIdx) (s : State) : Host.Outcome State Fault Refusal :=
  done (onPin p i (fun s =>
    let (t, s') := regRead p (.stored .out) s
    advance 1 (regWrite p .out (t ^^^ pinMask i) s')) s)

/-- `IS_SET_HIGH` (R127): reads OUT, not IN. -/
def execIsSetHigh (p : PortId) (i : PinIdx) (s : State) : Host.Outcome State Fault Refusal :=
  done (testPin p (.stored .out) i (fun l => l == .high) s)

/-- `IS_SET_LOW` (R128). -/
def execIsSetLow (p : PortId) (i : PinIdx) (s : State) : Host.Outcome State Fault Refusal :=
  done (testPin p (.stored .out) i (fun l => l == .low) s)

end Sys2Proof.Machine
end

