-- ==== Sys2Proof/Machine/PinTransitions.lean ====
section
/-! DEFINITION. Pin mode transitions (42_pin_transitions.md, R100 to R113). -/

namespace Sys2Proof.Machine

/-- `Undo(S)`: clear the extra bit the mode's constructor set (R101). -/
def undo (source : Mode) (p : PortId) (i : PinIdx) (s : State) : State :=
  match source with
  | .input => s
  | .inputPullUp => clearPin p .pu i s
  | .output => s
  | .outputOpenDrain => clearPin p .od i s

/-- The common frame of the transitions: undo the source mode, then the target's constructor steps (R100). The
registers are not asked which mode the pin is in (R115). -/
def transition (source target : Mode) (p : PortId) (i : PinIdx) (s : State) : State :=
  onPin p i (fun s => advance 1 (construct target p i (undo source p i s))) s

/-- `INTO_INPUT` from InputPullUp (R102). -/
def execIntoInputFromIpu (p : PortId) (i : PinIdx) (s : State) : Host.Outcome State Fault Refusal :=
  done (transition .inputPullUp .input p i s)

/-- `INTO_INPUT` from Output (R103). -/
def execIntoInputFromOut (p : PortId) (i : PinIdx) (s : State) : Host.Outcome State Fault Refusal :=
  done (transition .output .input p i s)

/-- `INTO_INPUT` from OutputOpenDrain (R104). -/
def execIntoInputFromOod (p : PortId) (i : PinIdx) (s : State) : Host.Outcome State Fault Refusal :=
  done (transition .outputOpenDrain .input p i s)

/-- `INTO_INPUT_PU` from Input (R105). -/
def execIntoInputPuFromIn (p : PortId) (i : PinIdx) (s : State) : Host.Outcome State Fault Refusal :=
  done (transition .input .inputPullUp p i s)

/-- `INTO_INPUT_PU` from Output (R106). -/
def execIntoInputPuFromOut (p : PortId) (i : PinIdx) (s : State) : Host.Outcome State Fault Refusal :=
  done (transition .output .inputPullUp p i s)

/-- `INTO_INPUT_PU` from OutputOpenDrain (R107). -/
def execIntoInputPuFromOod (p : PortId) (i : PinIdx) (s : State) : Host.Outcome State Fault Refusal :=
  done (transition .outputOpenDrain .inputPullUp p i s)

/-- `INTO_OUTPUT` from Input (R108). -/
def execIntoOutputFromIn (p : PortId) (i : PinIdx) (s : State) : Host.Outcome State Fault Refusal :=
  done (transition .input .output p i s)

/-- `INTO_OUTPUT` from InputPullUp (R109). -/
def execIntoOutputFromIpu (p : PortId) (i : PinIdx) (s : State) : Host.Outcome State Fault Refusal :=
  done (transition .inputPullUp .output p i s)

/-- `INTO_OUTPUT` from OutputOpenDrain (R110). -/
def execIntoOutputFromOod (p : PortId) (i : PinIdx) (s : State) : Host.Outcome State Fault Refusal :=
  done (transition .outputOpenDrain .output p i s)

/-- `INTO_OUTPUT_OD` from Input (R111). -/
def execIntoOutputOdFromIn (p : PortId) (i : PinIdx) (s : State) : Host.Outcome State Fault Refusal :=
  done (transition .input .outputOpenDrain p i s)

/-- `INTO_OUTPUT_OD` from InputPullUp (R112). -/
def execIntoOutputOdFromIpu (p : PortId) (i : PinIdx) (s : State) : Host.Outcome State Fault Refusal :=
  done (transition .inputPullUp .outputOpenDrain p i s)

/-- `INTO_OUTPUT_OD` from Output (R113). -/
def execIntoOutputOdFromOut (p : PortId) (i : PinIdx) (s : State) : Host.Outcome State Fault Refusal :=
  done (transition .output .outputOpenDrain p i s)

end Sys2Proof.Machine
end

