-- ==== Sys2Proof/Machine/RegisterAccess.lean ====
section
/-! DEFINITION. Register access commands (40_register_access.md, R81 to R84). -/

namespace Sys2Proof.Machine

/-- `BASE` (R81): no register is accessed. -/
def execBase (p : PortId) (s : State) : Host.Outcome State Fault Refusal :=
  done (onPort p (fun s => advance 1 (setResult (s.config.baseOf p) s)) s)

/-- `REG_READ` (R82): one volatile load into RESULT. -/
def execRegRead (p : PortId) (off : Reg) (s : State) : Host.Outcome State Fault Refusal :=
  done (onPort p (fun s => let (v, s') := regRead p off s; advance 1 (setResult v s')) s)

/-- `REG_WRITE` (R83): one volatile store of the whole word. -/
def execRegWrite (p : PortId) (r : StoredReg) (v : Word) (s : State) : Host.Outcome State Fault Refusal :=
  done (onPort p (fun s => advance 2 (regWrite p r v s)) s)

/-- `REG_MODIFY` (R84). -/
def execRegModify (p : PortId) (r : StoredReg) (clr set : Word) (s : State) : Host.Outcome State Fault Refusal :=
  done (onPort p (fun s => advance 3 (regModify p r clr set s)) s)

end Sys2Proof.Machine
end

