-- ==== Sys2Proof/Machine/Dispatch.lean ====
section
/-! DEFINITION. The meaning of each command, one arm for each. -/

namespace Sys2Proof.Machine

def exec (i : Instr) (s : State) : Host.Outcome State Fault Refusal :=
  match i with
  | .mkInput port pin => Sys2Proof.Machine.execMkInput port pin s
  | .mkInputPu port pin => Sys2Proof.Machine.execMkInputPu port pin s
  | .mkOutput port pin => Sys2Proof.Machine.execMkOutput port pin s
  | .mkOutputOd port pin => Sys2Proof.Machine.execMkOutputOd port pin s
  | .intoInputFromIpu port pin => Sys2Proof.Machine.execIntoInputFromIpu port pin s
  | .intoInputFromOut port pin => Sys2Proof.Machine.execIntoInputFromOut port pin s
  | .intoInputFromOod port pin => Sys2Proof.Machine.execIntoInputFromOod port pin s
  | .intoInputPuFromIn port pin => Sys2Proof.Machine.execIntoInputPuFromIn port pin s
  | .intoInputPuFromOut port pin => Sys2Proof.Machine.execIntoInputPuFromOut port pin s
  | .intoInputPuFromOod port pin => Sys2Proof.Machine.execIntoInputPuFromOod port pin s
  | .intoOutputFromIn port pin => Sys2Proof.Machine.execIntoOutputFromIn port pin s
  | .intoOutputFromIpu port pin => Sys2Proof.Machine.execIntoOutputFromIpu port pin s
  | .intoOutputFromOod port pin => Sys2Proof.Machine.execIntoOutputFromOod port pin s
  | .intoOutputOdFromIn port pin => Sys2Proof.Machine.execIntoOutputOdFromIn port pin s
  | .intoOutputOdFromIpu port pin => Sys2Proof.Machine.execIntoOutputOdFromIpu port pin s
  | .intoOutputOdFromOut port pin => Sys2Proof.Machine.execIntoOutputOdFromOut port pin s
  | .read port _ pin => Sys2Proof.Machine.execRead port pin s
  | .isHigh port _ pin => Sys2Proof.Machine.execIsHigh port pin s
  | .isLow port _ pin => Sys2Proof.Machine.execIsLow port pin s
  | .setHigh port _ pin => Sys2Proof.Machine.execSetHigh port pin s
  | .setLow port _ pin => Sys2Proof.Machine.execSetLow port pin s
  | .setState port _ level pin => Sys2Proof.Machine.execSetState port level pin s
  | .toggle port pin => Sys2Proof.Machine.execToggle port pin s
  | .isSetHigh port pin => Sys2Proof.Machine.execIsSetHigh port pin s
  | .isSetLow port pin => Sys2Proof.Machine.execIsSetLow port pin s
  | .base port => Sys2Proof.Machine.execBase port s
  | .regRead port off => Sys2Proof.Machine.execRegRead port off s
  | .regWrite port off value => Sys2Proof.Machine.execRegWrite port off value s
  | .regModify port off clearMask setMask => Sys2Proof.Machine.execRegModify port off clearMask setMask s
  | .dcfgDefault => Sys2Proof.Machine.execDcfgDefault s
  | .dcfg hz => Sys2Proof.Machine.execDcfg hz s
  | .delayNs n => Sys2Proof.Machine.execDelayNs n s
  | .delayUs n => Sys2Proof.Machine.execDelayUs n s
  | .delayMs n => Sys2Proof.Machine.execDelayMs n s

end Sys2Proof.Machine
end

