-- ==== Sys2Proof/Machine/Step.lean ====
section
/-! DEFINITION. One step of the block: fetch and decode at pc, refuse or execute. -/

namespace Sys2Proof.Machine

/-- One command (R60, R181). STATUS must be `Run` (R29); at the end of the stream the run is complete and there is no
next state; a command decode refuses is recorded in STATUS (R162). -/
def step (s : State) : Host.Outcome State Fault Refusal :=
  if s.status ≠ .run then .fault .stopped
  else if s.pc = s.stream.length then .fault .runComplete
  else if s.stream.length < s.pc then .fault .pcOutsideStream
  else
    match decode (s.stream.drop s.pc) with
    | .ok i => exec i s
    | .error reason => done (refuse reason s)

/-- `s` with an instruction's words standing at pc in the command stream, and STATUS `Run`, so that the next step
fetches and runs it (log 4). Words of the stream before and after them stay; a stream that ends before pc is filled up
with zero words. -/
def State.withFetchWord (s : State) (nbits w : Nat) : State :=
  let before := s.stream.take s.pc
  let gap := List.replicate (s.pc - s.stream.length) (0 : Word)
  { s with
    stream := before ++ gap ++ tableWords nbits w ++ s.stream.drop (s.pc + 3)
    status := .run }

end Sys2Proof.Machine
end

