-- ==== Sys2Proof/Machine/Assembler.lean ====
section
/-! DEFINITION. The assembly language: its statements and their text (R72), the typestate checks WT1 to WT6 (R73) and the
translation to command words (R74). Handles live here and not in the block (R35). -/

namespace Sys2Proof.Machine

/-- A handle's name. -/
abbrev Handle := String

/-- What a live handle stands for: `(p, i, mode)` (R35). -/
structure PinHandle where
  port : PortId
  pin  : PinIdx
  mode : Mode
  deriving DecidableEq, Repr

/-- The pin statements that take a handle and nothing else (R72). -/
inductive PinOp where
  | read | isHigh | isLow | setHigh | setLow | toggle | isSetHigh | isSetLow
  deriving DecidableEq, Repr

/-- The units of a delay statement (R72). -/
inductive DelayUnit where
  | ns | us | ms
  deriving DecidableEq, Repr

/-- An assembly statement (R72). A register offset is the byte written in the text, legal or not (WT6). -/
inductive Stmt where
  | construct (h : Handle) (mode : Mode) (port : PortId) (pin : PinIdx)
  | into (new : Handle) (target : Mode) (old : Handle)
  | pinOp (op : PinOp) (h : Handle)
  | setState (h : Handle) (level : Level)
  | base (port : PortId)
  | regRead (port : PortId) (off : BitVec 8)
  | regWrite (port : PortId) (off : BitVec 8) (value : Word)
  | regModify (port : PortId) (off : BitVec 8) (clearMask setMask : Word)
  | delayDefault
  | delayNew (hz : Word)
  | delay (unit : DelayUnit) (n : Word)
  deriving DecidableEq, Repr

/-- The checks of R73. -/
inductive TypeCheck where
  | wt1 | wt2 | wt3 | wt4 | wt5 | wt6
  deriving DecidableEq, Repr

/-- Why the assembler refuses a program: a line that is no statement of R72, or a failed check, with its line (R73). -/
inductive AsmError where
  | malformed (line : Nat)
  | illTyped (line : Nat) (check : TypeCheck)
  deriving DecidableEq, Repr

/-- What the checks carry from statement to statement: the live handles, every name defined so far (WT1), and whether
an engine has been constructed (WT5). -/
structure AsmContext where
  live    : List (Handle × PinHandle)
  defined : List Handle
  engine  : Bool
  deriving DecidableEq, Repr

/-- Before the first statement. -/
def AsmContext.start : AsmContext := { live := [], defined := [], engine := false }

/-- Define a new handle; its name must be new (WT1). -/
def AsmContext.define (c : AsmContext) (h : Handle) (ph : PinHandle) : Except TypeCheck AsmContext :=
  if c.defined.contains h then .error .wt1
  else .ok { c with live := (h, ph) :: c.live, defined := h :: c.defined }

/-- A transition consumes the handle it names (WT2). -/
def AsmContext.consume (c : AsmContext) (h : Handle) : AsmContext :=
  { c with live := c.live.filter fun e => e.1 != h }

/-- The handle's port, pin and mode; it must be defined and not consumed (WT2). -/
def AsmContext.handle (c : AsmContext) (h : Handle) : Except TypeCheck PinHandle :=
  match c.live.lookup h with
  | some ph => .ok ph
  | none => .error .wt2

/-- The opcode of a pin statement. -/
def PinOp.opcode : PinOp → Opcode
  | .read => .read
  | .isHigh => .isHigh
  | .isLow => .isLow
  | .setHigh => .setHigh
  | .setLow => .setLow
  | .toggle => .toggle
  | .isSetHigh => .isSetHigh
  | .isSetLow => .isSetLow

/-- The command of a pin statement on a handle (R74): MODE from the handle. -/
def PinOp.instr (op : PinOp) (ph : PinHandle) : Instr :=
  match op with
  | .read => .read ph.port ph.mode ph.pin
  | .isHigh => .isHigh ph.port ph.mode ph.pin
  | .isLow => .isLow ph.port ph.mode ph.pin
  | .setHigh => .setHigh ph.port ph.mode ph.pin
  | .setLow => .setLow ph.port ph.mode ph.pin
  | .toggle => .toggle ph.port ph.pin
  | .isSetHigh => .isSetHigh ph.port ph.pin
  | .isSetLow => .isSetLow ph.port ph.pin

/-- The constructor command of a mode (R72). -/
def constructorInstr (mode : Mode) (port : PortId) (pin : PinIdx) : Instr :=
  match mode with
  | .input => .mkInput port pin
  | .inputPullUp => .mkInputPu port pin
  | .output => .mkOutput port pin
  | .outputOpenDrain => .mkOutputOd port pin

/-- The delay command of a unit (R72). -/
def DelayUnit.instr (u : DelayUnit) (n : Word) : Instr :=
  match u with
  | .ns => .delayNs n
  | .us => .delayUs n
  | .ms => .delayMs n

/-- Check one statement (R73) and translate it (R74). Where a statement fails two checks the one reported is the first
in the order written here (log 7). -/
def checkStmt (c : AsmContext) : Stmt → Except TypeCheck (AsmContext × Instr)
  | .construct h mode port pin =>
    match c.define h ⟨port, pin, mode⟩ with
    | .error e => .error e
    | .ok c' => .ok (c', constructorInstr mode port pin)
  | .into new target old =>
    match c.handle old with
    | .error e => .error e
    | .ok ph =>
      match transitionTo target ph.mode ph.port ph.pin with
      | none => .error .wt4
      | some i =>
        match (c.consume old).define new { ph with mode := target } with
        | .error e => .error e
        | .ok c' => .ok (c', i)
  | .pinOp op h =>
    match c.handle h with
    | .error e => .error e
    | .ok ph => if ioMode op.opcode ph.mode then .ok (c, op.instr ph) else .error .wt3
  | .setState h level =>
    match c.handle h with
    | .error e => .error e
    | .ok ph =>
      if ioMode .setState ph.mode then .ok (c, .setState ph.port ph.mode level ph.pin) else .error .wt3
  | .base port => .ok (c, .base port)
  | .regRead port off =>
    match Reg.ofOffset off with
    | some r => .ok (c, .regRead port r)
    | none => .error .wt6
  | .regWrite port off value =>
    match StoredReg.ofOffset off with
    | some r => .ok (c, .regWrite port r value)
    | none => .error .wt6
  | .regModify port off clr set =>
    match StoredReg.ofOffset off with
    | some r => .ok (c, .regModify port r clr set)
    | none => .error .wt6
  | .delayDefault => .ok ({ c with engine := true }, .dcfgDefault)
  | .delayNew hz => .ok ({ c with engine := true }, .dcfg hz)
  | .delay u n => if c.engine then .ok (c, u.instr n) else .error .wt5

/-- Check and translate the statements of a program, each with its line. -/
def checkProgram (c : AsmContext) : List (Nat × Stmt) → Except AsmError (List Instr)
  | [] => .ok []
  | (line, st) :: rest =>
    match checkStmt c st with
    | .error e => .error (.illTyped line e)
    | .ok (c', i) =>
      match checkProgram c' rest with
      | .error e => .error e
      | .ok is => .ok (i :: is)

/-- The command stream of a well-typed program, or the assembler's refusal (R73, R74). -/
def assemble (program : List (Nat × Stmt)) : Except AsmError (List Word) :=
  match checkProgram .start program with
  | .error e => .error e
  | .ok is => .ok (is.flatMap encode)

/-! The text of a program (R72). What R72 leaves open is fixed here and named in log 7. -/

/-- A handle's name: a letter or `_`, then letters, digits and `_` (log 7). -/
def isIdent : List Char → Bool
  | [] => false
  | c :: rest => (c.isAlpha || c == '_') && rest.all fun c => c.isAlphanum || c == '_'

/-- A decimal digit's value. -/
def decDigit (c : Char) : Option Nat :=
  if '0' ≤ c ∧ c ≤ '9' then some (c.toNat - '0'.toNat) else none

/-- A hexadecimal digit's value; both cases of letter (log 7). -/
def hexDigit (c : Char) : Option Nat :=
  if '0' ≤ c ∧ c ≤ '9' then some (c.toNat - '0'.toNat)
  else if 'a' ≤ c ∧ c ≤ 'f' then some (c.toNat - 'a'.toNat + 10)
  else if 'A' ≤ c ∧ c ≤ 'F' then some (c.toNat - 'A'.toNat + 10)
  else none

/-- Digits in a base, after the value read so far. -/
def digitsValue (radix : Nat) (digit : Char → Option Nat) (acc : Nat) : List Char → Option Nat
  | [] => some acc
  | c :: rest =>
    match digit c with
    | some d => digitsValue radix digit (acc * radix + d) rest
    | none => none

/-- A number: decimal, or `0x` and hexadecimal (R72). -/
def parseNat : List Char → Option Nat
  | '0' :: 'x' :: d :: rest => digitsValue 16 hexDigit 0 (d :: rest)
  | [] => none
  | cs => digitsValue 10 decDigit 0 cs

/-- A number below `2 ^ w`. -/
def parseBits (w : Nat) (cs : List Char) : Option (BitVec w) :=
  match parseNat cs with
  | some n => if n < 2 ^ w then some (BitVec.ofNat w n) else none
  | none => none

/-- A register offset: a name or a number (R72). -/
def parseOff (cs : List Char) : Option (BitVec 8) :=
  if cs = "DIR".toList then some 0x00
  else if cs = "OUT".toList then some 0x04
  else if cs = "IN".toList then some 0x08
  else if cs = "OD".toList then some 0x0C
  else if cs = "PU".toList then some 0x10
  else parseBits 8 cs

/-- A handle's name as a string. -/
def parseHandle (cs : List Char) : Option Handle := if isIdent cs then some (String.ofList cs) else none

/-- The line without its comment: `;` starts one (R72). -/
def stripComment (cs : List Char) : List Char := cs.takeWhile fun c => c != ';'

/-- The tokens of a line: words separated by blanks, `,` and `=` each a token of their own. `word` is the token being
read, reversed. -/
def tokens (word : List Char) : List Char → List (List Char)
  | [] => if word.isEmpty then [] else [word.reverse]
  | c :: rest =>
    let flush := if word.isEmpty then [] else [word.reverse]
    if c == ' ' || c == '\t' || c == '\r' then flush ++ tokens [] rest
    else if c == ',' || c == '=' then flush ++ [c] :: tokens [] rest
    else tokens (c :: word) rest

/-- The mode a constructor statement names (R72). -/
def parseConstructor (cs : List Char) : Option Mode :=
  if cs = "pin.input".toList then some .input
  else if cs = "pin.input_pull_up".toList then some .inputPullUp
  else if cs = "pin.output".toList then some .output
  else if cs = "pin.output_open_drain".toList then some .outputOpenDrain
  else none

/-- The mode a transition statement names (R72). -/
def parseTransition (cs : List Char) : Option Mode :=
  if cs = "into_input".toList then some .input
  else if cs = "into_input_pull_up".toList then some .inputPullUp
  else if cs = "into_output".toList then some .output
  else if cs = "into_output_open_drain".toList then some .outputOpenDrain
  else none

/-- The pin statements by name (R72). -/
def parsePinOp (cs : List Char) : Option PinOp :=
  if cs = "read".toList then some .read
  else if cs = "is_high".toList then some .isHigh
  else if cs = "is_low".toList then some .isLow
  else if cs = "set_high".toList then some .setHigh
  else if cs = "set_low".toList then some .setLow
  else if cs = "toggle".toList then some .toggle
  else if cs = "is_set_high".toList then some .isSetHigh
  else if cs = "is_set_low".toList then some .isSetLow
  else none

/-- The delay statements by name (R72). -/
def parseDelay (cs : List Char) : Option DelayUnit :=
  if cs = "delay_ns".toList then some .ns
  else if cs = "delay_us".toList then some .us
  else if cs = "delay_ms".toList then some .ms
  else none

/-- The level of a `set_state` statement (R72). -/
def parseLevel (cs : List Char) : Option Level :=
  if cs = "high".toList then some .high
  else if cs = "low".toList then some .low
  else none

/-- A statement that is one word and one operand. -/
def parseUnary (word arg : List Char) : Option Stmt :=
  match parsePinOp word with
  | some op => (parseHandle arg).map fun h => .pinOp op h
  | none =>
    match parseDelay word with
    | some u => (parseBits 32 arg).map fun n => .delay u n
    | none =>
      if word = "base".toList then (parseBits 8 arg).map fun p => .base p
      else if word = "delay.new".toList then (parseBits 32 arg).map fun hz => .delayNew hz
      else none

/-- A statement that is one word and two operands. -/
def parseBinary (word a b : List Char) : Option Stmt :=
  if word = "set_state".toList then do
    let h ← parseHandle a
    let l ← parseLevel b
    pure (.setState h l)
  else if word = "reg.read".toList then do
    let p ← parseBits 8 a
    let off ← parseOff b
    pure (.regRead p off)
  else none

/-- The statement of a line's tokens (R72). -/
def parseStmt : List (List Char) → Option Stmt
  | [word] => if word = "delay.default".toList then some .delayDefault else none
  | [word, a] => parseUnary word a
  | [h, ['='], word, old] => do
    let new ← parseHandle h
    let target ← parseTransition word
    let old ← parseHandle old
    pure (.into new target old)
  | [word, a, [','], b] => parseBinary word a b
  | [h, ['='], word, a, [','], b] => do
    let new ← parseHandle h
    let mode ← parseConstructor word
    let p ← parseBits 8 a
    let i ← parseBits 5 b
    pure (.construct new mode p i)
  | [word, a, [','], b, [','], c] =>
    if word = "reg.write".toList then do
      let p ← parseBits 8 a
      let off ← parseOff b
      let v ← parseBits 32 c
      pure (.regWrite p off v)
    else none
  | [word, a, [','], b, [','], c, [','], d] =>
    if word = "reg.modify".toList then do
      let p ← parseBits 8 a
      let off ← parseOff b
      let clr ← parseBits 32 c
      let set ← parseBits 32 d
      pure (.regModify p off clr set)
    else none
  | _ => none

/-- The lines of a text; `line` is the one being read, reversed. -/
def splitLines (line : List Char) : List Char → List (List Char)
  | [] => [line.reverse]
  | c :: rest => if c == '\n' then line.reverse :: splitLines [] rest else splitLines (c :: line) rest

/-- The statements of the lines from number `n` on; a line with no token holds none (log 7). -/
def parseLines (n : Nat) : List (List Char) → Except AsmError (List (Nat × Stmt))
  | [] => .ok []
  | l :: rest =>
    match tokens [] (stripComment l) with
    | [] => parseLines (n + 1) rest
    | ts =>
      match parseStmt ts with
      | none => .error (.malformed n)
      | some st =>
        match parseLines (n + 1) rest with
        | .error e => .error e
        | .ok sts => .ok ((n, st) :: sts)

/-- Assemble a program's text; lines are numbered from 1 (R72 to R74). -/
def assembleText (text : String) : Except AsmError (List Word) :=
  match parseLines 1 (splitLines [] text.toList) with
  | .error e => .error e
  | .ok program => assemble program

end Sys2Proof.Machine
end

