-- ==== Sys2Proof/Safety.lean ====
section
/-! DEFINITION. The terms claims are made in: complete runs and their observation (R181), what the event history says
(R33, R50), the trace of a pin's bits (R114), and the invariant of well-formed states. -/

namespace Sys2Proof.Machine

/-- The next state of an outcome, if it is one. -/
def nextState? (o : Host.Outcome State Fault Refusal) : Option State :=
  match o with
  | .next s => some s
  | .fault _ => none
  | .refused _ => none

/-- A run is complete: STATUS is `Run` and pc is the stream length (R181). -/
def State.complete (s : State) : Bool := decide (s.status = .run) && decide (s.pc = s.stream.length)

/-- What a complete run is observed by (R181). -/
structure Observation where
  ports  : List (PortId × PortRegs)
  result : Option Word
  freq   : Option Word
  ticks  : Nat
  events : List Event
  deriving DecidableEq, Repr

/-- The final registers of every valid port, RESULT, FREQ, ticks and events (R181). -/
def State.observe (s : State) : Observation where
  ports  := s.config.ports.map fun q => (q.id, s.portRegs q.id)
  result := s.result
  freq   := s.freq
  ticks  := s.ticks
  events := s.events

/-- Reading RESULT before any command has written it is a fault of the observation (R30). -/
inductive ObservationFault where
  | resultUnwritten
  deriving DecidableEq, Repr

/-- The host's read of RESULT (R30). -/
def hostReadResult (s : State) : Except ObservationFault Word :=
  match s.result with
  | some v => .ok v
  | none => .error .resultUnwritten

/-- What a stopped block records (R160): the code, pc, and the first word of the command at pc. The port of an abort
is in STATUS; the port and pin of `UnsupportedPin` are fields of that word. -/
structure StopRecord where
  code : BitVec 8
  pc   : Nat
  w0   : Option Word
  deriving DecidableEq, Repr

/-- The record of R160, none while STATUS is `Run`. pc still indexes the command (R161 to R163). -/
def State.stopRecord (s : State) : Option StopRecord :=
  s.status.code.map fun c => { code := c, pc := s.pc, w0 := s.stream[s.pc]? }

/-! What the history says (R33, R50). -/

/-- The value of the latest write to a register in a history, `before` if there is none (R50). -/
def latestWrite (p : PortId) (r : StoredReg) (before : Word) : List Event → Word
  | [] => before
  | .wr q r' v :: rest => latestWrite p r (if q = p ∧ r' = r then v else before) rest
  | .rd _ _ _ :: rest => latestWrite p r before rest
  | .res _ :: rest => latestWrite p r before rest
  | .abort _ :: rest => latestWrite p r before rest

/-- The value of the latest write of RESULT in a history. -/
def latestResult (before : Option Word) : List Event → Option Word
  | [] => before
  | .res v :: rest => latestResult (some v) rest
  | .rd _ _ _ :: rest => latestResult before rest
  | .wr _ _ _ :: rest => latestResult before rest
  | .abort _ :: rest => latestResult before rest

/-- A port's register at reset (R180). -/
def State.resetValue (s : State) (p : PortId) (r : StoredReg) : Word := (s.config.resetRegs p).get r

/-- Every stored register holds the latest value written to it, or its reset value (R26, R50). -/
def State.RegistersFollowHistory (s : State) : Prop :=
  ∀ p r, s.stored p r = latestWrite p r (s.resetValue p r) s.events

/-- Every read of a stored register returned, at each implemented pin's bit, the value of the latest earlier write to it,
or the reset value (R26, R50). -/
def State.ReadsFollowHistory (s : State) : Prop :=
  ∀ earlier p r v later, s.events = earlier ++ .rd p (.stored r) v :: later →
    v &&& s.config.implemented p = latestWrite p r (s.resetValue p r) earlier &&& s.config.implemented p

/-- RESULT is the latest value the history says was returned (R30, R33). -/
def State.ResultFollowsHistory (s : State) : Prop := s.result = latestResult none s.events

/-- The history holds an abort of a port exactly if STATUS is that abort (R161). -/
def State.AbortsFollowHistory (s : State) : Prop :=
  ∀ p, Event.abort p ∈ s.events ↔ s.status = .abortedInvalidPort p

/-- STATUS, RESULT, the registers and the recorded reads all agree with the history. -/
structure State.HistoryAgrees (s : State) : Prop where
  registers : s.RegistersFollowHistory
  reads     : s.ReadsFollowHistory
  result    : s.ResultFollowsHistory
  aborts    : s.AbortsFollowHistory

/-! The trace of one pin (R114). -/

/-- What a write does to the bits of pin `(p, i)`: a write of DIR, PU or OD of that port sets its bit. -/
def PinBits.afterWrite (b : PinBits) (r : StoredReg) (v : Word) (i : PinIdx) : PinBits :=
  match r with
  | .dir => { b with dir := v.getLsbD i.toNat }
  | .pu => { b with pu := v.getLsbD i.toNat }
  | .od => { b with od := v.getLsbD i.toNat }
  | .out => b

/-- The bits of pin `(p, i)` after each write a history records, from bits `b` (R114). -/
def pinTrace (p : PortId) (i : PinIdx) (b : PinBits) : List Event → List PinBits
  | [] => []
  | .wr q r v :: rest =>
    let b' := if q = p then b.afterWrite r v i else b
    b' :: pinTrace p i b' rest
  | .rd _ _ _ :: rest => pinTrace p i b rest
  | .res _ :: rest => pinTrace p i b rest
  | .abort _ :: rest => pinTrace p i b rest

/-- The table of R114: (DIR, PU, OD) after each write of a transition. -/
def transitionTrace (source target : Mode) : List PinBits :=
  match source, target with
  | .input, .inputPullUp => [⟨false, false, false⟩, ⟨false, true, false⟩]
  | .input, .output => [⟨true, false, false⟩]
  | .input, .outputOpenDrain => [⟨true, false, false⟩, ⟨true, false, true⟩]
  | .inputPullUp, .input => [⟨false, false, false⟩, ⟨false, false, false⟩]
  | .inputPullUp, .output => [⟨false, false, false⟩, ⟨true, false, false⟩]
  | .inputPullUp, .outputOpenDrain => [⟨false, false, false⟩, ⟨true, false, false⟩, ⟨true, false, true⟩]
  | .output, .input => [⟨false, false, false⟩]
  | .output, .inputPullUp => [⟨false, false, false⟩, ⟨false, true, false⟩]
  | .output, .outputOpenDrain => [⟨true, false, false⟩, ⟨true, false, true⟩]
  | .outputOpenDrain, .input => [⟨true, false, false⟩, ⟨false, false, false⟩]
  | .outputOpenDrain, .inputPullUp => [⟨true, false, false⟩, ⟨false, false, false⟩, ⟨false, true, false⟩]
  | .outputOpenDrain, .output => [⟨true, false, false⟩, ⟨true, false, false⟩]
  | .input, .input | .inputPullUp, .inputPullUp => []
  | .output, .output | .outputOpenDrain, .outputOpenDrain => []

/-! Invariants. -/

/-- What every run keeps: the register file is canonical, pc stays inside the stream (R31), and CNT is 0 whenever no
spin is in progress, so between commands (R28). -/
def State.wf (s : State) : Bool :=
  s.regsCanonical && decide (s.pc ≤ s.stream.length) && decide (s.cnt = 0)

/-- The state without the environment's inputs: what a command could show of a state if no read drew a value. -/
def State.withoutInputs (s : State) : State := { s with samples := [], draws := 0 }

/-- The states agree but for the environment's inputs and what a draw can show in: RESULT and the history (R23, R30). -/
def SameUpToDraws (s t : State) : Prop :=
  { s.withoutInputs with result := none, events := [] } = { t.withoutInputs with result := none, events := [] }

/-! What the spec says a pin command does to the registers, as a table of its own beside the meanings. -/

/-- A masked step on one pin: the register, and whether the pin's bit is set (true) or cleared (false). -/
abbrev PinStep := StoredReg × Bool

/-- The steps of the commands that write a pin's bits by Modify, in the order of the rules that list them: R91 to R94,
R102 to R113, R123 to R125. None for the other commands. -/
def pinSteps : Instr → Option (List PinStep)
  | .mkInput _ _ => some [(.dir, false)]
  | .mkInputPu _ _ => some [(.dir, false), (.pu, true)]
  | .mkOutput _ _ => some [(.dir, true)]
  | .mkOutputOd _ _ => some [(.dir, true), (.od, true)]
  | .intoInputFromIpu _ _ => some [(.pu, false), (.dir, false)]
  | .intoInputFromOut _ _ => some [(.dir, false)]
  | .intoInputFromOod _ _ => some [(.od, false), (.dir, false)]
  | .intoInputPuFromIn _ _ => some [(.dir, false), (.pu, true)]
  | .intoInputPuFromOut _ _ => some [(.dir, false), (.pu, true)]
  | .intoInputPuFromOod _ _ => some [(.od, false), (.dir, false), (.pu, true)]
  | .intoOutputFromIn _ _ => some [(.dir, true)]
  | .intoOutputFromIpu _ _ => some [(.pu, false), (.dir, true)]
  | .intoOutputFromOod _ _ => some [(.od, false), (.dir, true)]
  | .intoOutputOdFromIn _ _ => some [(.dir, true), (.od, true)]
  | .intoOutputOdFromIpu _ _ => some [(.pu, false), (.dir, true), (.od, true)]
  | .intoOutputOdFromOut _ _ => some [(.dir, true), (.od, true)]
  | .setHigh _ _ _ => some [(.out, true)]
  | .setLow _ _ _ => some [(.out, false)]
  | .setState _ _ .high _ => some [(.out, true)]
  | .setState _ _ .low _ => some [(.out, false)]
  | .read _ _ _ | .isHigh _ _ _ | .isLow _ _ _ => none
  | .toggle _ _ | .isSetHigh _ _ | .isSetLow _ _ => none
  | .base _ | .regRead _ _ | .regWrite _ _ _ | .regModify _ _ _ _ => none
  | .dcfgDefault | .dcfg _ | .delayNs _ | .delayUs _ | .delayMs _ => none

/-- What a step leaves in a register that held `v`: the pin's bit set, or cleared. -/
def pinStepValue (v : Word) (i : PinIdx) (set : Bool) : Word :=
  if set then v ||| pinMask i else v &&& ~~~ pinMask i

/-- The word a register holds after the steps, from the word `v` before them. -/
def afterSteps (r : StoredReg) (v : Word) (i : PinIdx) : List PinStep → Word
  | [] => v
  | (r', set) :: rest => afterSteps r (if r' = r then pinStepValue v i set else v) i rest

/-- The bit of the pin itself after the steps, from the bit `b` before them. -/
def bitAfterSteps (r : StoredReg) (b : Bool) : List PinStep → Bool
  | [] => b
  | (r', set) :: rest => bitAfterSteps r (if r' = r then set else b) rest

/-- The records of the steps on a fully implemented port, where `regs` gives the words held before them: a read and a
write for each step, in order. -/
def stepEvents (p : PortId) (i : PinIdx) (s : State) : List PinStep → List Event
  | [] => []
  | (r, set) :: rest =>
    [.rd p (.stored r) (s.stored p r), .wr p r (pinStepValue (s.stored p r) i set)] ++ stepEvents p i s rest

/-- Which access a record is, without its value. -/
inductive EventShape where
  | rd (port : PortId) (off : Reg)
  | wr (port : PortId) (off : StoredReg)
  | res
  | abort (port : PortId)
  deriving DecidableEq, Repr

/-- The record without its value. -/
def Event.shape : Event → EventShape
  | .rd p off _ => .rd p off
  | .wr p off _ => .wr p off
  | .res _ => .res
  | .abort p => .abort p

/-- The accesses of the steps: a read and a write for each (R45, R49). -/
def stepShapes (p : PortId) : List PinStep → List EventShape
  | [] => []
  | (r, _) :: rest => [.rd p (.stored r), .wr p r] ++ stepShapes p rest

/-- The commands that may write a stored register (R21, R22, R24, R25). -/
def mayWrite (i : Instr) (r : StoredReg) : Bool :=
  match i with
  | .regWrite _ off _ => off == r
  | .regModify _ off _ _ => off == r
  | .toggle _ _ => r == .out
  | .mkInput _ _ | .mkInputPu _ _ | .mkOutput _ _ | .mkOutputOd _ _ => stepsTouch
  | .intoInputFromIpu _ _ | .intoInputFromOut _ _ | .intoInputFromOod _ _ => stepsTouch
  | .intoInputPuFromIn _ _ | .intoInputPuFromOut _ _ | .intoInputPuFromOod _ _ => stepsTouch
  | .intoOutputFromIn _ _ | .intoOutputFromIpu _ _ | .intoOutputFromOod _ _ => stepsTouch
  | .intoOutputOdFromIn _ _ | .intoOutputOdFromIpu _ _ | .intoOutputOdFromOut _ _ => stepsTouch
  | .setHigh _ _ _ | .setLow _ _ _ | .setState _ _ _ _ => stepsTouch
  | .read _ _ _ | .isHigh _ _ _ | .isLow _ _ _ | .isSetHigh _ _ | .isSetLow _ _ => false
  | .base _ | .regRead _ _ => false
  | .dcfgDefault | .dcfg _ | .delayNs _ | .delayUs _ | .delayMs _ => false
where
  /-- The register is named in the command's steps. -/
  stepsTouch : Bool :=
    match pinSteps i with
    | some steps => steps.any fun st => st.1 == r
    | none => false

/-- The commands that read `IN`: the only ones that draw on a fully implemented port (R23). -/
def readsInput : Instr → Bool
  | .read _ _ _ | .isHigh _ _ _ | .isLow _ _ _ => true
  | .regRead _ off => off == .input
  | .mkInput _ _ | .mkInputPu _ _ | .mkOutput _ _ | .mkOutputOd _ _ => false
  | .intoInputFromIpu _ _ | .intoInputFromOut _ _ | .intoInputFromOod _ _ => false
  | .intoInputPuFromIn _ _ | .intoInputPuFromOut _ _ | .intoInputPuFromOod _ _ => false
  | .intoOutputFromIn _ _ | .intoOutputFromIpu _ _ | .intoOutputFromOod _ _ => false
  | .intoOutputOdFromIn _ _ | .intoOutputOdFromIpu _ _ | .intoOutputOdFromOut _ _ => false
  | .setHigh _ _ _ | .setLow _ _ _ | .setState _ _ _ _ => false
  | .toggle _ _ | .isSetHigh _ _ | .isSetLow _ _ => false
  | .base _ | .regWrite _ _ _ | .regModify _ _ _ _ => false
  | .dcfgDefault | .dcfg _ | .delayNs _ | .delayUs _ | .delayMs _ => false

/-- The commands that return a value in RESULT (R30). -/
def returnsResult : Instr → Bool
  | .read _ _ _ | .isHigh _ _ _ | .isLow _ _ _ | .isSetHigh _ _ | .isSetLow _ _ => true
  | .base _ | .regRead _ _ => true
  | .mkInput _ _ | .mkInputPu _ _ | .mkOutput _ _ | .mkOutputOd _ _ => false
  | .intoInputFromIpu _ _ | .intoInputFromOut _ _ | .intoInputFromOod _ _ => false
  | .intoInputPuFromIn _ _ | .intoInputPuFromOut _ _ | .intoInputPuFromOod _ _ => false
  | .intoOutputFromIn _ _ | .intoOutputFromIpu _ _ | .intoOutputFromOod _ _ => false
  | .intoOutputOdFromIn _ _ | .intoOutputOdFromIpu _ _ | .intoOutputOdFromOut _ _ => false
  | .setHigh _ _ _ | .setLow _ _ _ | .setState _ _ _ _ | .toggle _ _ => false
  | .regWrite _ _ _ | .regModify _ _ _ _ => false
  | .dcfgDefault | .dcfg _ | .delayNs _ | .delayUs _ | .delayMs _ => false

/-- The commands that spin (R145 to R147). -/
def isDelay : Instr → Bool
  | .delayNs _ | .delayUs _ | .delayMs _ => true
  | .mkInput _ _ | .mkInputPu _ _ | .mkOutput _ _ | .mkOutputOd _ _ => false
  | .intoInputFromIpu _ _ | .intoInputFromOut _ _ | .intoInputFromOod _ _ => false
  | .intoInputPuFromIn _ _ | .intoInputPuFromOut _ _ | .intoInputPuFromOod _ _ => false
  | .intoOutputFromIn _ _ | .intoOutputFromIpu _ _ | .intoOutputFromOod _ _ => false
  | .intoOutputOdFromIn _ _ | .intoOutputOdFromIpu _ _ | .intoOutputOdFromOut _ _ => false
  | .read _ _ _ | .isHigh _ _ _ | .isLow _ _ _ => false
  | .setHigh _ _ _ | .setLow _ _ _ | .setState _ _ _ _ => false
  | .toggle _ _ | .isSetHigh _ _ | .isSetLow _ _ => false
  | .base _ | .regRead _ _ | .regWrite _ _ _ | .regModify _ _ _ _ => false
  | .dcfgDefault | .dcfg _ => false

/-! Frames. -/

/-- Platform, stream and STATUS are as before. -/
def SamePlatform (s t : State) : Prop := t.config = s.config ∧ t.stream = s.stream ∧ t.status = s.status

/-- The delay counter is as before: FREQ, CNT, ticks. -/
def SameDelay (s t : State) : Prop := t.freq = s.freq ∧ t.cnt = s.cnt ∧ t.ticks = s.ticks

/-- The environment's inputs are as before: no read drew a value. -/
def SameInputs (s t : State) : Prop := t.samples = s.samples ∧ t.draws = s.draws

/-- Every stored register of every port is as before. -/
def SameRegisters (s t : State) : Prop := ∀ q r, t.stored q r = s.stored q r

/-- Every stored register but one is as before. -/
def SameRegistersBut (p : PortId) (r : StoredReg) (s t : State) : Prop :=
  ∀ q r', ¬ (q = p ∧ r' = r) → t.stored q r' = s.stored q r'

/-- Every register of every other port is as before, and on port `p` every implemented pin but `i`. -/
def SameOtherPins (p : PortId) (i : PinIdx) (s t : State) : Prop :=
  (∀ q r, q ≠ p → t.stored q r = s.stored q r) ∧
    ∀ r k, k < 32 → k ≠ i.toNat → (s.config.implemented p).getLsbD k = true →
      (t.stored p r).getLsbD k = (s.stored p r).getLsbD k

end Sys2Proof.Machine
end

