-- ==== Sys2Proof/Certificates/Slice0/Obligations.lean ====
section
/-! DEFINITION. The statements for the provers. -/

open Sys2Proof Sys2Proof.Machine

/-! Encoding (30_encoding.md). -/

/-- Decoding an encoded well-formed command, whatever follows it, gives the command back, with every operand. -/
def Obligations.DecodeOfEncodeIsTheCommand : Prop :=
  ∀ (i : Instr) (rest : List Word), i.wf = true → decode (encode i ++ rest) = .ok i

/-- A command that decodes is well-formed, and the words it was read from are its encoding and what follows: each
word has one meaning (R71, "exactly one command"). -/
def Obligations.DecodedWordsAreTheEncoding : Prop :=
  ∀ (ws : List Word) (i : Instr), decode ws = .ok i → i.wf = true ∧ ∃ rest, ws = encode i ++ rest

/-- Words of the spec's own examples decode to the commands the spec gives for them, one or more of each family
(examples of R81, R84, R91, R92, R102, R109, R113, R120, R125, R126, R140, R147 and of 95_test_vectors.md). -/
def Obligations.SpecExampleWordsDecode : Prop :=
  decode [0x01000002] = .ok (.mkInput 0 2) ∧
  decode [0x0200001F] = .ok (.mkInputPu 0 31) ∧
  decode [0x05000044] = .ok (.intoInputFromIpu 0 4) ∧
  decode [0x07010045] = .ok (.intoOutputFromIpu 1 5) ∧
  decode [0x08000084] = .ok (.intoOutputOdFromOut 0 4) ∧
  decode [0x10000043] = .ok (.read 0 .inputPullUp 3) ∧
  decode [0x1A0000A2] = .ok (.setState 0 .output .high 2) ∧
  decode [0x1B000084] = .ok (.toggle 0 4) ∧
  decode [0x20FF0000] = .ok (.base 0xFF) ∧
  decode [0x21000800] = .ok (.regRead 0 .input) ∧
  decode [0x23000C00, 0x000000F0, 0x0000000F] = .ok (.regModify 0 .od 0xF0 0x0F) ∧
  decode [0x30000000] = .ok .dcfgDefault ∧
  decode [0x34000000, 0x000003E8] = .ok (.delayMs 1000)

/-- Every word that decodes is selected by a row of the opcode table, and no word is selected by two rows (R71). -/
def Obligations.OpcodeRowsCoverAndDoNotOverlap : Prop :=
  (∀ (w0 : Word) (rest : List Word) (i : Instr), decode (w0 :: rest) = .ok i →
    ∃ row ∈ opcodeRows, row.selects w0 = true) ∧
  ∀ (w0 : Word) (a b : OpcodeRow), a ∈ opcodeRows → b ∈ opcodeRows → a.selects w0 = true → b.selects w0 = true → a = b

/-- IllegalOpcode is the answer for exactly the codes R69 lists. -/
def Obligations.UnassignedOpcodesAreIllegal : Prop :=
  ∀ (w0 : Word) (rest : List Word),
    decode (w0 :: rest) = .error .illegalOpcode ↔
      ((fieldOp w0).toNat = 0x00 ∨ (0x09 ≤ (fieldOp w0).toNat ∧ (fieldOp w0).toNat ≤ 0x0F) ∨
        (0x13 ≤ (fieldOp w0).toNat ∧ (fieldOp w0).toNat ≤ 0x17) ∨
        (0x1E ≤ (fieldOp w0).toNat ∧ (fieldOp w0).toNat ≤ 0x1F) ∨
        (0x24 ≤ (fieldOp w0).toNat ∧ (fieldOp w0).toNat ≤ 0x2F) ∨ 0x35 ≤ (fieldOp w0).toNat)

/-- Truncated is the answer for exactly the assigned opcodes with fewer words left than their length: two for
REG_WRITE, DCFG and the delays, three for REG_MODIFY (R64, R70). -/
def Obligations.ShortStreamsAreTruncated : Prop :=
  ∀ (w0 : Word) (rest : List Word),
    decode (w0 :: rest) = .error .truncated ↔
      ((fieldOp w0 ∈ [0x22, 0x31, 0x32, 0x33, 0x34] ∧ rest = []) ∨ (fieldOp w0 = 0x23 ∧ rest.length < 2))

/-- With the words of its length left, an assigned opcode is refused with ReservedFieldNonzero exactly if a field that R64
lists as must-be-zero is not zero (R66): OFF, MODE, LV for the constructors; OFF, LV for the transitions and the pin I/O
commands but SET_STATE; OFF for SET_STATE; all fields but PORT for BASE; MODE, LV, PIN for REG_*; all fields for the delay
family. -/
def Obligations.NonzeroReservedFieldsAreRefused : Prop :=
  ∀ (w0 : Word) (rest : List Word),
    decode (w0 :: rest) = .error .reservedFieldNonzero ↔
      ((fieldOp w0 ∈ [0x01, 0x02, 0x03, 0x04] ∧ ¬ (fieldOff w0 = 0 ∧ fieldMode w0 = 0 ∧ fieldLv w0 = 0)) ∨
       (fieldOp w0 ∈ [0x05, 0x06, 0x07, 0x08, 0x10, 0x11, 0x12, 0x18, 0x19, 0x1B, 0x1C, 0x1D] ∧
          ¬ (fieldOff w0 = 0 ∧ fieldLv w0 = 0)) ∨
       (fieldOp w0 = 0x1A ∧ ¬ fieldOff w0 = 0) ∨
       (fieldOp w0 = 0x20 ∧ ¬ (fieldOff w0 = 0 ∧ fieldMode w0 = 0 ∧ fieldLv w0 = 0 ∧ fieldPin w0 = 0)) ∨
       ((fieldOp w0 = 0x21 ∨ (fieldOp w0 = 0x22 ∧ 1 ≤ rest.length) ∨ (fieldOp w0 = 0x23 ∧ 2 ≤ rest.length)) ∧
          ¬ (fieldMode w0 = 0 ∧ fieldLv w0 = 0 ∧ fieldPin w0 = 0)) ∨
       ((fieldOp w0 = 0x30 ∨ (fieldOp w0 ∈ [0x31, 0x32, 0x33, 0x34] ∧ 1 ≤ rest.length)) ∧
          ¬ (fieldPort w0 = 0 ∧ fieldOff w0 = 0 ∧ fieldMode w0 = 0 ∧ fieldLv w0 = 0 ∧ fieldPin w0 = 0)))

/-- SameModeTransition is the answer for exactly the four pairs of R65, with OFF and LV zero. -/
def Obligations.SameModeTransitionsAreRefused : Prop :=
  ∀ (w0 : Word) (rest : List Word),
    decode (w0 :: rest) = .error .sameModeTransition ↔
      (fieldOff w0 = 0 ∧ fieldLv w0 = 0 ∧
        ((fieldOp w0 = 0x05 ∧ fieldMode w0 = 0b00) ∨ (fieldOp w0 = 0x06 ∧ fieldMode w0 = 0b01) ∨
          (fieldOp w0 = 0x07 ∧ fieldMode w0 = 0b10) ∨ (fieldOp w0 = 0x08 ∧ fieldMode w0 = 0b11)))

/-- ModeNotPermitted is the answer for exactly the pin I/O commands whose MODE is outside their set (R64, R67), with
their must-be-zero fields zero. -/
def Obligations.WrongPinModesAreRefused : Prop :=
  ∀ (w0 : Word) (rest : List Word),
    decode (w0 :: rest) = .error .modeNotPermitted ↔
      (fieldOff w0 = 0 ∧ (fieldLv w0 = 0 ∨ fieldOp w0 = 0x1A) ∧
        ((fieldOp w0 ∈ [0x10, 0x11, 0x12] ∧ fieldMode w0 ∈ [0b10, 0b11]) ∨
          (fieldOp w0 ∈ [0x18, 0x19, 0x1A] ∧ fieldMode w0 ∈ [0b00, 0b01]) ∨
          (fieldOp w0 ∈ [0x1B, 0x1C, 0x1D] ∧ fieldMode w0 ∈ [0b00, 0b01, 0b11])))

/-- IllegalOffset is the answer for exactly the register commands with the words of their length left, their must-be-zero
fields zero and an offset R68 does not admit (0x08 is admitted only for REG_READ). -/
def Obligations.IllegalOffsetsAreRefused : Prop :=
  ∀ (w0 : Word) (rest : List Word),
    decode (w0 :: rest) = .error .illegalOffset ↔
      (fieldMode w0 = 0 ∧ fieldLv w0 = 0 ∧ fieldPin w0 = 0 ∧
        ((fieldOp w0 = 0x21 ∧ fieldOff w0 ∉ [0x00, 0x04, 0x08, 0x0C, 0x10]) ∨
          (((fieldOp w0 = 0x22 ∧ 1 ≤ rest.length) ∨ (fieldOp w0 = 0x23 ∧ 2 ≤ rest.length)) ∧
            fieldOff w0 ∉ [0x00, 0x04, 0x0C, 0x10])))

/-! The step, the stops, and what an outcome records (60_exceptions.md, 70_reset_and_hazards.md). -/

/-- When the words at pc decode to a command and STATUS is Run, a step is that command. -/
def Obligations.StepRunsTheDecodedCommand : Prop :=
  ∀ (s : State) (i : Instr), s.status = .run → s.pc < s.stream.length → decode (s.stream.drop s.pc) = .ok i →
    step s = exec i s

/-- A refusal by decode or by CheckPin sets STATUS and changes nothing else: pc still indexes the command. The refused
state is not a completed run (R162). -/
def Obligations.RefusalOnlySetsStatus : Prop :=
  (∀ (s : State) (why : RefusalReason), s.status = .run → s.pc < s.stream.length →
    decode (s.stream.drop s.pc) = .error why → step s = .next { s with status := .refused why }) ∧
  (∀ (s : State) (i : Instr) (p : PortId) (k : PinIdx), i.port? = some p → i.pin? = some k →
    s.config.validPort p = true → s.config.pinImplemented p k = false →
    exec i s = .next { s with status := .refused .unsupportedPin }) ∧
  ∀ (s : State) (why : RefusalReason), State.complete { s with status := .refused why } = false

/-- Every command that names an invalid port aborts: STATUS and the history record the port, and nothing else changes, so no
access is performed and pc still indexes the command. No further command executes, and the run is not a completed one
(R161). -/
def Obligations.InvalidPortAborts : Prop :=
  ∀ (s : State) (i : Instr) (p : PortId), i.port? = some p → s.config.validPort p = false →
    ∃ t, exec i s = .next t ∧ t = { s with status := .abortedInvalidPort p, events := s.events ++ [.abort p] } ∧
      step t = .fault .stopped ∧ t.complete = false

/-- A delay command with no engine constructed faults, DELAY_MS with 0 too: STATUS says so and nothing else changes; the run
is not a completed one (R163). -/
def Obligations.DelayWithoutEngineFaults : Prop :=
  ∀ (s : State) (n : Word) (i : Instr), s.freq = none → i ∈ [.delayNs n, .delayUs n, .delayMs n] →
    ∃ t, exec i s = .next t ∧ t = { s with status := .faultedDelayUnconfigured } ∧ t.complete = false

/-- From a terminal STATUS there is no step: no command leaves it (R29, R165). -/
def Obligations.TerminalStatusHasNoStep : Prop :=
  ∀ (s : State), s.status ≠ .run → step s = .fault .stopped

/-- A complete run has no further step (R181). -/
def Obligations.CompleteRunHasNoStep : Prop :=
  ∀ (s : State), s.complete = true → step s = .fault .runComplete

/-- A step that ends the run leaves the record of R160: the outcome's code, and pc and the first word of the command
that ended it. -/
def Obligations.StoppedBlockRecordsItsCommand : Prop :=
  ∀ (s t : State), step s = .next t → t.status ≠ .run →
    ∃ code w0, t.stopRecord = some { code := code, pc := s.pc, w0 := some w0 } ∧ s.stream[s.pc]? = some w0 ∧
      (code = 0x01 ∧ (∃ p, t.status = .abortedInvalidPort p) ∨
       code = 0x10 ∧ t.status = .refused .illegalOpcode ∨ code = 0x11 ∧ t.status = .refused .truncated ∨
       code = 0x12 ∧ t.status = .refused .reservedFieldNonzero ∨
       code = 0x13 ∧ t.status = .refused .sameModeTransition ∨
       code = 0x14 ∧ t.status = .refused .modeNotPermitted ∨ code = 0x15 ∧ t.status = .refused .illegalOffset ∨
       code = 0x16 ∧ t.status = .refused .unsupportedPin ∨ code = 0x20 ∧ t.status = .faultedDelayUnconfigured)

/-- Inside the stream and with STATUS Run, a step always answers a next state: the block has no other way to stop. -/
def Obligations.RunningStepAnswersNext : Prop :=
  ∀ (s : State), s.status = .run → s.pc < s.stream.length → ∃ t, step s = .next t

/-- A step either completes the command at pc, leaving STATUS Run and advancing pc by the command's length in words (the
length of its opcode, and of its encoding), or ends the run with pc unchanged (R31, R161 to R163). -/
def Obligations.PcAdvancesByCommandLength : Prop :=
  ∀ (s t : State), step s = .next t →
    (t.status = .run ∧ ∃ i, decode (s.stream.drop s.pc) = .ok i ∧ t.pc = s.pc + i.opcode.len ∧
      (encode i).length = i.opcode.len) ∨
    (t.status ≠ .run ∧ t.pc = s.pc)

/-- Reset leaves what R180 gives, on every platform: each port's stored registers at the platform's reset values, FREQ
none, CNT 0, STATUS Run, RESULT none, pc 0, ticks 0, no events; and no step leaves a terminal status, so reset alone
does. -/
def Obligations.ResetLeavesTheStatedValues : Prop :=
  (∀ (c : Config),
    (∀ p q, c.portConfig p = some q →
      (State.resetWith c).stored p .dir = q.resetDir ∧ (State.resetWith c).stored p .out = q.resetOut ∧
      (State.resetWith c).stored p .od = q.resetOd ∧ (State.resetWith c).stored p .pu = q.resetPu) ∧
    (State.resetWith c).config = c ∧ (State.resetWith c).freq = none ∧ (State.resetWith c).cnt = 0 ∧
    (State.resetWith c).status = .run ∧ (State.resetWith c).result = none ∧ (State.resetWith c).pc = 0 ∧
    (State.resetWith c).ticks = 0 ∧ (State.resetWith c).events = []) ∧
  ∀ (s : State), s.status ≠ .run → ∀ t, step s ≠ .next t

/-! Register access (40_register_access.md). -/

/-- BASE returns the port's base address and accesses no register (R81). -/
def Obligations.BaseReturnsTheBaseAddress : Prop :=
  ∀ (s : State) (p : PortId), s.config.validPort p = true →
    exec (.base p) s = .next
      { s with
        result := some (s.config.baseOf p)
        events := s.events ++ [.res (s.config.baseOf p)]
        pc := s.pc + 1 }

/-- REG_READ loads one register into RESULT, records the read and the result, and changes nothing else but pc and, where
it drew, the environment's inputs (R82). For IN the value is the draw; for a stored register it is the stored value on a
fully implemented port, where nothing is drawn, and the stored bit at every implemented pin of any port (R26). The
environment's inputs are the fields samples and draws, the model's own (log 3). -/
def Obligations.RegReadReturnsTheRegister : Prop :=
  (∀ (s : State) (p : PortId), s.config.validPort p = true →
    exec (.regRead p .input) s = .next
      { s with
        result := some s.drawValue
        events := s.events ++ [.rd p .input s.drawValue, .res s.drawValue]
        pc := s.pc + 1
        samples := s.samples.tail
        draws := s.draws + 1 }) ∧
  (∀ (s : State) (p : PortId) (r : StoredReg), s.config.validPort p = true → s.config.fullPort p = true →
    exec (.regRead p (.stored r)) s = .next
      { s with
        result := some (s.stored p r)
        events := s.events ++ [.rd p (.stored r) (s.stored p r), .res (s.stored p r)]
        pc := s.pc + 1 }) ∧
  ∀ (s : State) (p : PortId) (r : StoredReg), s.config.validPort p = true →
    ∃ v t, exec (.regRead p (.stored r)) s = .next t ∧ t.result = some v ∧
      v &&& s.config.implemented p = s.stored p r &&& s.config.implemented p ∧
      t.events = s.events ++ [.rd p (.stored r) v, .res v] ∧ t.pc = s.pc + 1 ∧
      SamePlatform s t ∧ SameDelay s t ∧ SameRegisters s t

/-- REG_WRITE replaces the whole word, records the write, and changes nothing else but pc (R83). -/
def Obligations.RegWriteStoresTheWholeWord : Prop :=
  ∀ (s : State) (p : PortId) (r : StoredReg) (v : Word), s.config.validPort p = true →
    ∃ t, exec (.regWrite p r v) s = .next t ∧ t.stored p r = v ∧ SameRegistersBut p r s t ∧
      t.events = s.events ++ [.wr p r v] ∧ t.pc = s.pc + 2 ∧ t.result = s.result ∧
      SamePlatform s t ∧ SameDelay s t ∧ SameInputs s t

/-- REG_MODIFY reads once and writes once, always both, and leaves the register at the value read with the clear mask's
bits cleared and then the set mask's bits set; on a fully implemented port the value read is the stored one. Nothing else
changes but pc and, where it drew, the environment's inputs (R84). -/
def Obligations.RegModifyReadsThenWrites : Prop :=
  ∀ (s : State) (p : PortId) (r : StoredReg) (clr set : Word), s.config.validPort p = true →
    ∃ v t, exec (.regModify p r clr set) s = .next t ∧ t.stored p r = ((v &&& ~~~ clr) ||| set) ∧
      v &&& s.config.implemented p = s.stored p r &&& s.config.implemented p ∧
      (s.config.fullPort p = true → v = s.stored p r ∧ SameInputs s t) ∧
      SameRegistersBut p r s t ∧
      t.events = s.events ++ [.rd p (.stored r) v, .wr p r ((v &&& ~~~ clr) ||| set)] ∧
      t.pc = s.pc + 3 ∧ t.result = s.result ∧ SamePlatform s t ∧ SameDelay s t

/-- The modify law (R85). The word Modify writes has, bit by bit, 1 where the set mask has 1, else 0 where the clear mask
has 1, else the bit of the word it read, which at an implemented pin is the stored bit. And no command on a pin changes
another pin's bit of any register, or any register of another port. -/
def Obligations.ModifyLawHoldsBitwise : Prop :=
  (∀ (s : State) (p : PortId) (r : StoredReg) (clr set : Word), s.config.validPort p = true →
    ∃ v w t, exec (.regModify p r clr set) s = .next t ∧
      t.events = s.events ++ [.rd p (.stored r) v, .wr p r w] ∧ t.stored p r = w ∧
      ∀ k, k < 32 →
        (set.getLsbD k = true → w.getLsbD k = true) ∧
        (set.getLsbD k = false → clr.getLsbD k = true → w.getLsbD k = false) ∧
        (set.getLsbD k = false → clr.getLsbD k = false → w.getLsbD k = v.getLsbD k) ∧
        ((s.config.implemented p).getLsbD k = true → v.getLsbD k = (s.stored p r).getLsbD k)) ∧
  ∀ (s t : State) (i : Instr) (p : PortId) (k : PinIdx), i.port? = some p → i.pin? = some k →
    exec i s = .next t → SameOtherPins p k s t

/-- The access by address and the access by port and offset are one: on a platform that meets R41, the register at
Base(p) + off is register off of port p, so MemRead and MemWrite there are RegRead and RegWrite (R42). -/
def Obligations.AddressAccessIsRegisterAccess : Prop :=
  ∀ (s : State) (p : PortId), s.config.wf = true → s.config.validPort p = true →
    (∀ off, (s.config.regAddress p off).toNat = (s.config.baseOf p).toNat + off.offset.toNat) ∧
    (∀ off, memRead (s.config.regAddress p off) s = some (regRead p off s)) ∧
    ∀ r v, memWrite (s.config.regAddress p (.stored r)) v s = some (regWrite p r v s)

/-! Pin constructors, transitions and output levels (41, 42, 43). -/

/-- On a fully implemented port, the constructors, the transitions and SET_HIGH, SET_LOW, SET_STATE complete: each step
of the command (`pinSteps`, the lists of R91 to R94, R102 to R113, R123 to R125) reads a register of the port and writes it
back with only this pin's bit set or cleared, in that order and nothing else; RESULT, the other registers and every
other part of the state are unchanged and pc advances by 1. -/
def Obligations.PinCommandsPerformTheirSteps : Prop :=
  ∀ (s : State) (i : Instr) (p : PortId) (k : PinIdx) (steps : List PinStep),
    i.port? = some p → i.pin? = some k → pinSteps i = some steps →
    s.config.validPort p = true → s.config.fullPort p = true →
    ∃ t, exec i s = .next t ∧
      (∀ r, t.stored p r = afterSteps r (s.stored p r) k steps) ∧
      (∀ q r, q ≠ p → t.stored q r = s.stored q r) ∧
      t.events = s.events ++ stepEvents p k s steps ∧
      t.pc = s.pc + 1 ∧ t.result = s.result ∧ SamePlatform s t ∧ SameDelay s t ∧ SameInputs s t

/-- On any platform, for an implemented pin, the same commands complete with the pin's bits as their steps say, no other
implemented pin's bit changed, no register of another port or outside the steps changed, and the accesses of the steps
and no other; whatever the registers said of the pin before (R90, R100, R115). -/
def Obligations.PinCommandsTouchOnlyTheirPin : Prop :=
  ∀ (s : State) (i : Instr) (p : PortId) (k : PinIdx) (steps : List PinStep),
    i.port? = some p → i.pin? = some k → pinSteps i = some steps →
    s.config.validPort p = true → s.config.pinImplemented p k = true →
    ∃ t evs, exec i s = .next t ∧
      (∀ r, (t.stored p r).getLsbD k.toNat = bitAfterSteps r ((s.stored p r).getLsbD k.toNat) steps) ∧
      (∀ r, (∀ st ∈ steps, st.1 ≠ r) → t.stored p r = s.stored p r) ∧
      SameOtherPins p k s t ∧
      t.events = s.events ++ evs ∧ evs.map Event.shape = stepShapes p steps ∧
      t.pc = s.pc + 1 ∧ t.result = s.result ∧ SamePlatform s t ∧ SameDelay s t

/-- The footprint of the constructors (R95): on the pin, at most the DIR bit and the PU bit (MK_INPUT_PU) or the OD bit
(MK_OUTPUT_OD) change; no other pin's bit, no register of another port, never OUT. From PU and OD bits that are 0, whatever
the DIR bit, the pin is left in the constructor's mode; from any bits, MK_INPUT and MK_INPUT_PU leave the direction bit clear
and MK_OUTPUT and MK_OUTPUT_OD leave it set. -/
def Obligations.ConstructorsReachTheirMode : Prop :=
  ∀ (s : State) (mode : Mode) (p : PortId) (k : PinIdx),
    s.config.validPort p = true → s.config.pinImplemented p k = true →
    ∃ t, exec (constructorInstr mode p k) s = .next t ∧
      SameOtherPins p k s t ∧ t.stored p .out = s.stored p .out ∧
      (mode ≠ .inputPullUp → t.stored p .pu = s.stored p .pu) ∧
      (mode ≠ .outputOpenDrain → t.stored p .od = s.stored p .od) ∧
      ((t.pinBits p k).dir = true ↔ mode ∈ [Mode.output, Mode.outputOpenDrain]) ∧
      ((s.pinBits p k).pu = false → (s.pinBits p k).od = false → t.encodedMode p k = some mode)

/-- The transition invariant (R114): from a pin in encoded mode S, the bits after each write of a transition from S to T
are the table's, each of them consistent, and the encoded mode at the end is T. -/
def Obligations.TransitionsStayConsistent : Prop :=
  ∀ (s : State) (source target : Mode) (p : PortId) (k : PinIdx) (i : Instr),
    transitionTo target source p k = some i → s.config.validPort p = true → s.config.pinImplemented p k = true →
    s.encodedMode p k = some source →
    ∃ t evs, exec i s = .next t ∧ t.events = s.events ++ evs ∧
      pinTrace p k (s.pinBits p k) evs = transitionTrace source target ∧
      (∀ b ∈ transitionTrace source target, b.consistent = true) ∧
      t.encodedMode p k = some target

/-- The encoded mode of a pin is the table of R34 over its bits in DIR, PU and OD, and Consistent, the formula of R34 over
the same bits, holds exactly on the table's four rows. -/
def Obligations.ConsistentBitsAreTheFourModes : Prop :=
  ∀ (s : State) (p : PortId) (k : PinIdx),
    let dir := (s.stored p .dir).getLsbD k.toNat
    let pu := (s.stored p .pu).getLsbD k.toNat
    let od := (s.stored p .od).getLsbD k.toNat
    s.encodedMode p k =
      (if dir = false ∧ pu = false ∧ od = false then some .input
       else if dir = false ∧ pu = true ∧ od = false then some .inputPullUp
       else if dir = true ∧ pu = false ∧ od = false then some .output
       else if dir = true ∧ pu = false ∧ od = true then some .outputOpenDrain
       else none) ∧
    ((s.pinBits p k).consistent = true ↔
      ¬ (pu = true ∧ dir = true) ∧ ¬ (pu = true ∧ od = true) ∧ (od = true → dir = true)) ∧
    ((s.pinBits p k).consistent = true ↔ s.encodedMode p k ≠ none)

/-- From any state, Output, then Input, then Output again leaves DIR as one Output construction does: the pin's bit set and
every other implemented pin's bit kept; on a fully implemented port the whole register is the same (R116). -/
def Obligations.ReentryEqualsFreshOutput : Prop :=
  ∀ (s : State) (p : PortId) (k : PinIdx), s.config.validPort p = true → s.config.pinImplemented p k = true →
    ∃ a b c, exec (.mkOutput p k) s = .next a ∧ exec (.intoInputFromOut p k) a = .next b ∧
      exec (.intoOutputFromIn p k) b = .next c ∧
      (c.stored p .dir).getLsbD k.toNat = true ∧ SameOtherPins p k s a ∧ SameOtherPins p k s c ∧
      c.stored p .dir &&& s.config.implemented p = a.stored p .dir &&& s.config.implemented p ∧
      (s.config.fullPort p = true →
        c.stored p .dir = a.stored p .dir ∧ a.stored p .dir = s.stored p .dir ||| pinMask k ∧ SameRegisters a c)

/-- The four commands of R183 bring a pin from any bits to the Input encoding, and so do its three REG_MODIFY commands on
PU, OD and DIR with the pin's mask to clear; both keep every other implemented pin. -/
def Obligations.UnknownPinReachesInput : Prop :=
  ∀ (s : State) (p : PortId) (k : PinIdx), s.config.validPort p = true → s.config.pinImplemented p k = true →
    (∃ a b c d, exec (.mkInputPu p k) s = .next a ∧ exec (.intoInputFromIpu p k) a = .next b ∧
      exec (.mkOutputOd p k) b = .next c ∧ exec (.intoInputFromOod p k) c = .next d ∧
      d.encodedMode p k = some .input ∧ SameOtherPins p k s d) ∧
    ∃ a b c, exec (.regModify p .pu (pinMask k) 0) s = .next a ∧ exec (.regModify p .od (pinMask k) 0) a = .next b ∧
      exec (.regModify p .dir (pinMask k) 0) b = .next c ∧
      c.encodedMode p k = some .input ∧ SameOtherPins p k s c

/-- READ, IS_HIGH and IS_LOW make one draw and return the pin's bit of it, or its negation, as 1 or 0; no register is
written (R120 to R122). The value drawn is free. -/
def Obligations.InputCommandsReturnTheDrawnLevel : Prop :=
  ∀ (s : State) (p : PortId) (m : Mode) (k : PinIdx) (i : Instr) (v : Word),
    s.config.validPort p = true → s.config.pinImplemented p k = true →
    ((i = .read p m k ∨ i = .isHigh p m k) ∧ v = (if s.drawValue.getLsbD k.toNat then 1 else 0) ∨
      i = .isLow p m k ∧ v = (if s.drawValue.getLsbD k.toNat then 0 else 1)) →
    exec i s = .next
      { s with
        result := some v
        events := s.events ++ [.rd p .input s.drawValue, .res v]
        pc := s.pc + 1
        samples := s.samples.tail
        draws := s.draws + 1 }

/-- TOGGLE reads OUT and writes it back with only this pin's bit inverted, on a fully implemented port (R126). -/
def Obligations.ToggleInvertsThePin : Prop :=
  ∀ (s : State) (p : PortId) (k : PinIdx), s.config.validPort p = true → s.config.fullPort p = true →
    ∃ t, exec (.toggle p k) s = .next t ∧ t.stored p .out = s.stored p .out ^^^ pinMask k ∧
      SameRegistersBut p .out s t ∧
      t.events = s.events ++
        [.rd p (.stored .out) (s.stored p .out), .wr p .out (s.stored p .out ^^^ pinMask k)] ∧
      t.pc = s.pc + 1 ∧ t.result = s.result ∧ SamePlatform s t ∧ SameDelay s t ∧ SameInputs s t

/-- On any platform TOGGLE inverts an implemented pin's OUT bit and keeps every other implemented pin, and two of them
restore the bit (R126). -/
def Obligations.TwoTogglesRestoreThePin : Prop :=
  ∀ (s : State) (p : PortId) (k : PinIdx), s.config.validPort p = true → s.config.pinImplemented p k = true →
    ∃ a b, exec (.toggle p k) s = .next a ∧ exec (.toggle p k) a = .next b ∧
      (a.stored p .out).getLsbD k.toNat = !(s.stored p .out).getLsbD k.toNat ∧
      (b.stored p .out).getLsbD k.toNat = (s.stored p .out).getLsbD k.toNat ∧
      SameOtherPins p k s a ∧ SameOtherPins p k s b ∧ SameRegistersBut p .out s b ∧
      a.result = s.result ∧ b.pc = s.pc + 2

/-- IS_SET_HIGH returns the stored OUT bit and IS_SET_LOW its negation, as 1 or 0, with one read of OUT, one result and no
write (R127, R128). -/
def Obligations.IntrospectionReturnsTheStoredLevel : Prop :=
  ∀ (s : State) (p : PortId) (k : PinIdx) (i : Instr) (v : Word),
    s.config.validPort p = true → s.config.pinImplemented p k = true →
    (i = .isSetHigh p k ∧ v = (if (s.stored p .out).getLsbD k.toNat then 1 else 0) ∨
      i = .isSetLow p k ∧ v = (if (s.stored p .out).getLsbD k.toNat then 0 else 1)) →
    ∃ t w, exec i s = .next t ∧ t.result = some v ∧ t.events = s.events ++ [.rd p (.stored .out) w, .res v] ∧
      w &&& s.config.implemented p = s.stored p .out &&& s.config.implemented p ∧
      (s.config.fullPort p = true → w = s.stored p .out ∧ SameInputs s t) ∧
      t.pc = s.pc + 1 ∧ SameRegisters s t ∧ SamePlatform s t ∧ SameDelay s t

/-- SET_HIGH, then IS_SET_HIGH, returns 1; SET_LOW, then IS_SET_HIGH, returns 0 (R127); SET_STATE in their place is the
same (R125). -/
def Obligations.SetLevelIsReadBack : Prop :=
  ∀ (s : State) (p : PortId) (m : Mode) (k : PinIdx) (level : Level) (i : Instr),
    s.config.validPort p = true → s.config.pinImplemented p k = true →
    (i = .setState p m level k ∨ i = (if level = .high then .setHigh p m k else .setLow p m k)) →
    ∃ a b, exec i s = .next a ∧ exec (.isSetHigh p k) a = .next b ∧
      b.result = some (if level = .high then 1 else 0)

/-- IS_HIGH has the effects of READ (R121), and SET_STATE those of SET_HIGH or SET_LOW (R125). -/
def Obligations.DerivedPinCommandsEqualTheirBase : Prop :=
  ∀ (s : State) (p : PortId) (m m' : Mode) (k : PinIdx),
    exec (.isHigh p m k) s = exec (.read p m' k) s ∧
    exec (.setState p m .high k) s = exec (.setHigh p m' k) s ∧
    exec (.setState p m .low k) s = exec (.setLow p m' k) s

/-! The delay counter (44_delay.md). -/

/-- DCFG_DEFAULT takes the platform's default frequency and DCFG its operand, 0 too; nothing else changes but pc
(R140, R141). -/
def Obligations.EngineConstructionSetsFreq : Prop :=
  ∀ (s : State) (hz : Word),
    exec .dcfgDefault s = .next { s with freq := some s.config.defaultFreq, pc := s.pc + 1 } ∧
    exec (.dcfg hz) s = .next { s with freq := some hz, pc := s.pc + 2 }

/-- The cycle counts are the exact floors of n*f/10^9 and n*f/10^6, at most 18446744065 and 18446744065119, which are
reached at n = f = 2^32 - 1 (R142). -/
def Obligations.CycleCountsAreExact : Prop :=
  (∀ n f : Word, (cyclesNs n f).toNat = n.toNat * f.toNat / 1000000000 ∧
    (cyclesUs n f).toNat = n.toNat * f.toNat / 1000000 ∧
    (cyclesNs n f).toNat ≤ 18446744065 ∧ (cyclesUs n f).toNat ≤ 18446744065119) ∧
  (cyclesNs 0xFFFFFFFF 0xFFFFFFFF).toNat = 18446744065 ∧ (cyclesUs 0xFFFFFFFF 0xFFFFFFFF).toNat = 18446744065119

/-- Clamp(c) = max(c, 1) for every computed count, the count for n = 0 too: DELAY_NS and DELAY_US with 0 add one tick,
whatever the frequency (R143). -/
def Obligations.ClampIsUnconditional : Prop :=
  (∀ c : Count, (clampCount c).toNat = max c.toNat 1) ∧
  ∀ (s : State) (f : Word) (i : Instr), s.freq = some f → i ∈ [.delayNs 0, .delayUs 0] →
    exec i s = .next { s with ticks := s.ticks + 1, cnt := 0, pc := s.pc + 2 }

/-- Spin(c), taken as one step, is the loop the spec writes: exactly c iterations, c more ticks, CNT at 0; and the
saturating subtraction never saturates in it (R144). -/
def Obligations.SpinIsItsLoop : Prop :=
  (∀ (s : State) (c : Count), spinByLoop c s = spin c s ∧ (spinByLoop c s).ticks = s.ticks + c.toNat ∧
    (spinByLoop c s).cnt = 0) ∧
  ∀ c : Count, c ≠ 0 → (satDec c).toNat + 1 = c.toNat

/-- DELAY_NS with an engine adds max(1, floor(n*f/10^9)) ticks, leaves CNT 0, and changes nothing else but pc
(R143, R145, R148). -/
def Obligations.DelayNsCountsTheFloor : Prop :=
  ∀ (s : State) (n f : Word), s.freq = some f →
    exec (.delayNs n) s = .next
      { s with ticks := s.ticks + max 1 (n.toNat * f.toNat / 1000000000), cnt := 0, pc := s.pc + 2 }

/-- DELAY_US with an engine adds max(1, floor(n*f/10^6)) ticks, leaves CNT 0, and changes nothing else but pc
(R143, R146, R148). -/
def Obligations.DelayUsCountsTheFloor : Prop :=
  ∀ (s : State) (n f : Word), s.freq = some f →
    exec (.delayUs n) s = .next
      { s with ticks := s.ticks + max 1 (n.toNat * f.toNat / 1000000), cnt := 0, pc := s.pc + 2 }

/-- DELAY_MS with an engine is n loops of one 1000 us spin each, every one of at least one iteration, and adds
n * max(1, floor(f/1000)) ticks: at least n, 0 for n = 0. Nothing else changes but CNT, 0 after any spin, and pc (R147, R148,
R150). That CNT keeps its value at n = 0 is the model's reading, DEDUCED in log 9. -/
def Obligations.DelayMsRepeatsOneMillisecond : Prop :=
  ∀ (s : State) (n f : Word), s.freq = some f →
    exec (.delayMs n) s = .next (advance 2 (spinTimesByLoop n.toNat (clampCount (cyclesUs 1000 f)) s)) ∧
    1 ≤ (clampCount (cyclesUs 1000 f)).toNat ∧
    exec (.delayMs n) s = .next
      { s with
        ticks := s.ticks + n.toNat * max 1 (f.toNat / 1000)
        cnt := (if n = 0 then s.cnt else 0)
        pc := s.pc + 2 } ∧
    n.toNat ≤ n.toNat * max 1 (f.toNat / 1000)

/-! Rules of the whole machine. -/

/-- A stored register changes only by a command that names it, and then only on the command's own port (R21, R22, R24,
R25, R95). -/
def Obligations.RegistersChangeOnlyByTheirCommands : Prop :=
  ∀ (s t : State) (i : Instr), exec i s = .next t →
    (∀ p r, mayWrite i r = false → t.stored p r = s.stored p r) ∧
    ∀ p r, i.port? ≠ some p → t.stored p r = s.stored p r

/-- RESULT is changed only by the commands that return a value (R30). -/
def Obligations.ResultChangesOnlyByReturningCommands : Prop :=
  ∀ (s t : State) (i : Instr), exec i s = .next t → returnsResult i = false → t.result = s.result

/-- ticks rises only in delay commands, never falls, and FREQ changes only in DCFG_DEFAULT and DCFG (R27, R32). -/
def Obligations.DelayStateChangesOnlyByDelayCommands : Prop :=
  ∀ (s t : State) (i : Instr), exec i s = .next t →
    s.ticks ≤ t.ticks ∧ (isDelay i = false → t.ticks = s.ticks ∧ t.cnt = s.cnt) ∧
    (i ≠ .dcfgDefault → (∀ hz, i ≠ .dcfg hz) → t.freq = s.freq)

/-- A step only appends to the history, and never changes the platform's parameters or the command stream (R33, R53,
R182). -/
def Obligations.StepKeepsPlatformStreamAndPast : Prop :=
  ∀ (s t : State), step s = .next t →
    t.config = s.config ∧ t.stream = s.stream ∧ ∃ evs, t.events = s.events ++ evs

/-- Every step keeps the invariant of well-formed states: the register file in canonical form, pc inside the stream
(R31), CNT 0 between commands (R28). -/
def Obligations.StepKeepsWellFormedStates : Prop :=
  ∀ (s t : State), s.wf = true → step s = .next t → t.wf = true

/-- Reset on any platform is a well-formed state. -/
def Obligations.ResetIsWellFormed : Prop :=
  ∀ (c : Config), (State.resetWith c).wf = true

/-- Every step keeps the agreement of state and history: each stored register holds the latest write or its reset value,
each read returned the latest earlier write or the reset value, RESULT is the latest returned value, and an abort is
recorded exactly when STATUS is that abort (R26, R46, R50). -/
def Obligations.StepKeepsHistoryAgreement : Prop :=
  ∀ (s t : State), s.HistoryAgrees → step s = .next t → t.HistoryAgrees

/-- Reset on any platform agrees with its empty history. -/
def Obligations.ResetAgreesWithHistory : Prop :=
  ∀ (c : Config), (State.resetWith c).HistoryAgrees

/-- Draws reach only RESULT and the history. Two states that differ only in the environment's inputs go, by any command
on a fully implemented port or on none, to states that agree on everything but those inputs, RESULT and the history;
and if the command does not read IN, they agree on everything but the inputs (R23, R47). The inputs compared are the
fields samples and draws, the model's own (log 3). -/
def Obligations.DrawsReachOnlyResultAndHistory : Prop :=
  ∀ (s s' t t' : State) (i : Instr), s.withoutInputs = s'.withoutInputs →
    (∀ p, i.port? = some p → s.config.fullPort p = true) →
    exec i s = .next t → exec i s' = .next t' →
    ({ t.withoutInputs with result := none, events := [] } = { t'.withoutInputs with result := none, events := [] }) ∧
    (readsInput i = false → t.withoutInputs = t'.withoutInputs)

/-! The assembly language (R72 to R74). -/

/-- A program that passes the typestate checks assembles to a stream that decodes, command after command, to well-formed
commands whose encodings it is: the checks of R65 to R70 accept it (R74). -/
def Obligations.WellTypedProgramsDecode : Prop :=
  ∀ (program : List (Nat × Stmt)) (ws : List Word), assemble program = .ok ws →
    ∃ is : List Instr, ws = is.flatMap encode ∧ is.length = program.length ∧ (∀ i ∈ is, i.wf = true) ∧
      decodeAll ws.length ws = .ok is

/-- A program that passes the typestate checks is never refused and never faults: on a platform that implements every
pin of its valid ports, every state its run reaches has STATUS Run, or has aborted on an invalid port (R73, R163). -/
def Obligations.WellTypedProgramsOnlyAbort : Prop :=
  ∀ (program : List (Nat × Stmt)) (ws : List Word) (s t : State) (n : Nat), assemble program = .ok ws →
    s.stream = ws → s.pc = 0 → s.status = .run →
    (∀ p k, s.config.validPort p = true → s.config.pinImplemented p k = true) →
    Host.Core.run Sys2Proof.core n s = .next t →
    t.status = .run ∨ ∃ p, t.status = .abortedInvalidPort p

/-! The input draws, step after step (R23, R30). -/

/-- Steps keep agreement up to draws. On a platform that implements every pin of its valid ports, two states that agree
but for the environment's inputs, RESULT and the history step to two states that agree so again: no draw, and nothing
RESULT or the history holds of one, ever reaches a register, FREQ, CNT, ticks, pc, STATUS or what runs next (R23, R30,
R47). The inputs are the fields samples and draws, the model's own (log 3). -/
def Obligations.StepsKeepAgreementUpToDraws : Prop :=
  ∀ (s s' t : State), SameUpToDraws s s' →
    (∀ p, s.config.validPort p = true → s.config.fullPort p = true) →
    step s = .next t → ∃ t', step s' = .next t' ∧ SameUpToDraws t t'
end

