-- ==== Sys2Proof/Laws/Decode.lean ====
section
/-! SUPPORT. Laws of the encoding tables and of the fields of the first word (R61 to R64). -/

namespace Sys2Proof.Laws

open Sys2Proof

/-! Codes name what they were taken from, and nothing else. -/

@[simp] theorem opcode_ofCode_code (o : Opcode) : Opcode.ofCode o.code = some o := by cases o <;> decide

theorem opcode_code_of_ofCode {c : BitVec 8} {o : Opcode} (h : Opcode.ofCode c = some o) : o.code = c := by
  simpa using List.find?_some h

theorem opcode_mem_all (o : Opcode) : o ∈ Opcode.all := by cases o <;> decide

@[simp] theorem mode_ofCode_code (m : Mode) : Mode.ofCode m.code = m := by cases m <;> decide

theorem mode_code_ofCode (c : BitVec 2) : (Mode.ofCode c).code = c := by revert c; decide

@[simp] theorem level_ofCode_code (l : Level) : Level.ofCode l.code = l := by cases l <;> decide

theorem level_code_ofCode (c : BitVec 1) : (Level.ofCode c).code = c := by revert c; decide

@[simp] theorem storedReg_ofOffset_offset (r : StoredReg) : StoredReg.ofOffset r.offset = some r := by
  cases r <;> decide

@[simp] theorem reg_ofOffset_offset (r : Reg) : Reg.ofOffset r.offset = some r := by
  rcases r with r | _
  · cases r <;> decide
  · decide

theorem storedReg_offset_of_ofOffset {c : BitVec 8} {r : StoredReg} (h : StoredReg.ofOffset c = some r) :
    r.offset = c := by
  unfold StoredReg.ofOffset at h
  split at h
  · cases h; simp_all [StoredReg.offset]
  · split at h
    · cases h; simp_all [StoredReg.offset]
    · split at h
      · cases h; simp_all [StoredReg.offset]
      · split at h
        · cases h; simp_all [StoredReg.offset]
        · cases h

theorem reg_offset_of_ofOffset {c : BitVec 8} {r : Reg} (h : Reg.ofOffset c = some r) : r.offset = c := by
  unfold Reg.ofOffset at h
  split at h
  · cases h; simp_all [Reg.offset]
  · obtain ⟨r', hr, rfl⟩ := Option.map_eq_some_iff.mp h
    exact storedReg_offset_of_ofOffset hr

/-! The fields of a packed first word. -/

variable (op : BitVec 8) (port : PortId) (off : BitVec 8) (mode : BitVec 2) (lv : BitVec 1) (pin : PinIdx)

/-- Each bit of a packed word comes from the field that holds it (R61). -/
theorem packFields_bit (k : Nat) : (packFields op port off mode lv pin).getLsbD k =
    if k < 5 then pin.getLsbD k else if k < 6 then lv.getLsbD (k - 5) else if k < 8 then mode.getLsbD (k - 6)
    else if k < 16 then off.getLsbD (k - 8) else if k < 24 then port.getLsbD (k - 16) else op.getLsbD (k - 24) := by
  simp only [packFields, BitVec.getLsbD_append]
  by_cases h5 : k < 5
  · simp [h5]
  by_cases h6 : k < 6
  · have : k - 5 < 1 := by omega
    simp [h5, h6, this]
  by_cases h8 : k < 8
  · have e : k - 5 - 1 = k - 6 := by omega
    have : ¬ k - 5 < 1 := by omega
    have : k - 6 < 2 := by omega
    simp [*]
  by_cases h16 : k < 16
  · have e : k - 5 - 1 = k - 6 := by omega
    have e2 : k - 6 - 2 = k - 8 := by omega
    have : ¬ k - 5 < 1 := by omega
    have : ¬ k - 6 < 2 := by omega
    have : k - 8 < 8 := by omega
    simp [*]
  have e : k - 5 - 1 = k - 6 := by omega
  have e2 : k - 6 - 2 = k - 8 := by omega
  have e3 : k - 8 - 8 = k - 16 := by omega
  have e4 : k - 16 - 8 = k - 24 := by omega
  have : ¬ k - 5 < 1 := by omega
  have : ¬ k - 6 < 2 := by omega
  have : ¬ k - 8 < 8 := by omega
  by_cases h24 : k < 24
  · have : k - 16 < 8 := by omega
    simp [*]
  · have : ¬ k - 16 < 8 := by omega
    simp [*]

@[simp] theorem fieldOp_pack : fieldOp (packFields op port off mode lv pin) = op := by
  apply BitVec.eq_of_getLsbD_eq
  intro k hk
  simp only [fieldOp, BitVec.getLsbD_extractLsb', packFields_bit, hk, decide_true, Bool.true_and]
  repeat rw [if_neg (by omega)]
  congr 1; omega

@[simp] theorem fieldPort_pack : fieldPort (packFields op port off mode lv pin) = port := by
  apply BitVec.eq_of_getLsbD_eq
  intro k hk
  simp only [fieldPort, BitVec.getLsbD_extractLsb', packFields_bit, hk, decide_true, Bool.true_and]
  iterate 4 rw [if_neg (by omega)]
  rw [if_pos (by omega)]
  congr 1; omega

@[simp] theorem fieldOff_pack : fieldOff (packFields op port off mode lv pin) = off := by
  apply BitVec.eq_of_getLsbD_eq
  intro k hk
  simp only [fieldOff, BitVec.getLsbD_extractLsb', packFields_bit, hk, decide_true, Bool.true_and]
  iterate 3 rw [if_neg (by omega)]
  rw [if_pos (by omega)]
  congr 1; omega

@[simp] theorem fieldMode_pack : fieldMode (packFields op port off mode lv pin) = mode := by
  apply BitVec.eq_of_getLsbD_eq
  intro k hk
  simp only [fieldMode, BitVec.getLsbD_extractLsb', packFields_bit, hk, decide_true, Bool.true_and]
  iterate 2 rw [if_neg (by omega)]
  rw [if_pos (by omega)]
  congr 1; omega

@[simp] theorem fieldLv_pack : fieldLv (packFields op port off mode lv pin) = lv := by
  apply BitVec.eq_of_getLsbD_eq
  intro k hk
  simp only [fieldLv, BitVec.getLsbD_extractLsb', packFields_bit, hk, decide_true, Bool.true_and]
  rw [if_neg (by omega), if_pos (by omega)]
  congr 1; omega

@[simp] theorem fieldPin_pack : fieldPin (packFields op port off mode lv pin) = pin := by
  apply BitVec.eq_of_getLsbD_eq
  intro k hk
  simp only [fieldPin, BitVec.getLsbD_extractLsb', packFields_bit, hk, decide_true, Bool.true_and]
  rw [if_pos (by omega)]
  congr 1; omega

/-- A word is its fields. -/
theorem packFields_fields (w : Word) :
    packFields (fieldOp w) (fieldPort w) (fieldOff w) (fieldMode w) (fieldLv w) (fieldPin w) = w := by
  apply BitVec.eq_of_getLsbD_eq
  intro k hk
  rw [packFields_bit]
  simp only [fieldOp, fieldPort, fieldOff, fieldMode, fieldLv, fieldPin, BitVec.getLsbD_extractLsb']
  split
  · simp [*]
  split
  · simp [show k - 5 < 1 by omega, show 5 + (k - 5) = k by omega]
  split
  · simp [show k - 6 < 2 by omega, show 6 + (k - 6) = k by omega]
  split
  · simp [show k - 8 < 8 by omega, show 8 + (k - 8) = k by omega]
  split
  · simp [show k - 16 < 8 by omega, show 16 + (k - 16) = k by omega]
  · simp [show k - 24 < 8 by omega, show 24 + (k - 24) = k by omega]

/-! Which fields the must-be-zero masks of R64 cover. -/

/-- A word with no bit in a mask has every bit of the mask 0. -/
theorem bit_of_and_eq_zero {w m : Word} (h : w &&& m = 0#32) (k : Nat) (hm : m.getLsbD k = true) : w.getLsbD k = false := by
  have := congrArg (fun v : Word => v.getLsbD k) h
  simpa [hm] using this

/-- OFF and LV zero is what the mask 0xFF20 asks. -/
theorem pack_and_FF20 : packFields op port off mode lv pin &&& 0x0000FF20#32 = 0#32 ↔ off = 0#8 ∧ lv = 0#1 := by
  constructor
  · intro h
    constructor
    · apply BitVec.eq_of_getLsbD_eq
      intro k hk
      have := bit_of_and_eq_zero h (k + 8) (by interval_cases k <;> decide)
      rw [packFields_bit] at this
      iterate 3 rw [if_neg (by omega)] at this
      rw [if_pos (by omega), show k + 8 - 8 = k by omega] at this
      simpa using this
    · apply BitVec.eq_of_getLsbD_eq
      intro k hk
      have := bit_of_and_eq_zero h (k + 5) (by interval_cases k ; decide)
      rw [packFields_bit, if_neg (by omega), if_pos (by omega), show k + 5 - 5 = k by omega] at this
      simpa using this
  · rintro ⟨rfl, rfl⟩
    apply BitVec.eq_of_getLsbD_eq
    intro k hk
    rw [BitVec.getLsbD_and, packFields_bit]
    interval_cases k <;> simp

/-- OFF, MODE and LV zero is what the mask 0xFFE0 asks. -/
theorem pack_and_FFE0 : packFields op port off mode lv pin &&& 0x0000FFE0#32 = 0#32 ↔ off = 0#8 ∧ mode = 0#2 ∧ lv = 0#1 := by
  constructor
  · intro h
    have h' : packFields op port off mode lv pin &&& 0x0000FF20#32 = 0#32 := by
      have := congrArg (fun v : Word => v &&& 0x0000FF20#32) h
      simpa [BitVec.and_assoc] using this
    obtain ⟨ho, hl⟩ := (pack_and_FF20 op port off mode lv pin).mp h'
    refine ⟨ho, ?_, hl⟩
    apply BitVec.eq_of_getLsbD_eq
    intro k hk
    have := bit_of_and_eq_zero h (k + 6) (by interval_cases k <;> decide)
    rw [packFields_bit, if_neg (by omega), if_neg (by omega), if_pos (by omega), show k + 6 - 6 = k by omega] at this
    simpa using this
  · rintro ⟨rfl, rfl, rfl⟩
    apply BitVec.eq_of_getLsbD_eq
    intro k hk
    rw [BitVec.getLsbD_and, packFields_bit]
    interval_cases k <;> simp

/-- OFF zero is what the mask 0xFF00 asks. -/
theorem pack_and_FF00 : packFields op port off mode lv pin &&& 0x0000FF00#32 = 0#32 ↔ off = 0#8 := by
  constructor
  · intro h
    apply BitVec.eq_of_getLsbD_eq
    intro k hk
    have := bit_of_and_eq_zero h (k + 8) (by interval_cases k <;> decide)
    rw [packFields_bit] at this
    iterate 3 rw [if_neg (by omega)] at this
    rw [if_pos (by omega), show k + 8 - 8 = k by omega] at this
    simpa using this
  · rintro rfl
    apply BitVec.eq_of_getLsbD_eq
    intro k hk
    rw [BitVec.getLsbD_and, packFields_bit]
    interval_cases k <;> simp

/-- MODE, LV and PIN zero is what the mask 0xFF asks. -/
theorem pack_and_00FF : packFields op port off mode lv pin &&& 0x000000FF#32 = 0#32 ↔ mode = 0#2 ∧ lv = 0#1 ∧ pin = 0#5 := by
  constructor
  · intro h
    refine ⟨?_, ?_, ?_⟩ <;> apply BitVec.eq_of_getLsbD_eq <;> intro k hk
    · have := bit_of_and_eq_zero h (k + 6) (by interval_cases k <;> decide)
      rw [packFields_bit, if_neg (by omega), if_neg (by omega), if_pos (by omega), show k + 6 - 6 = k by omega] at this
      simpa using this
    · have := bit_of_and_eq_zero h (k + 5) (by interval_cases k ; decide)
      rw [packFields_bit, if_neg (by omega), if_pos (by omega), show k + 5 - 5 = k by omega] at this
      simpa using this
    · have := bit_of_and_eq_zero h k (by interval_cases k <;> decide)
      rw [packFields_bit, if_pos (by omega)] at this
      simpa using this
  · rintro ⟨rfl, rfl, rfl⟩
    apply BitVec.eq_of_getLsbD_eq
    intro k hk
    rw [BitVec.getLsbD_and, packFields_bit]
    interval_cases k <;> simp

/-- OFF, MODE, LV and PIN zero is what the mask 0xFFFF asks. -/
theorem pack_and_FFFF :
    packFields op port off mode lv pin &&& 0x0000FFFF#32 = 0#32 ↔ off = 0#8 ∧ mode = 0#2 ∧ lv = 0#1 ∧ pin = 0#5 := by
  constructor
  · intro h
    have h1 : packFields op port off mode lv pin &&& 0x0000FF00#32 = 0#32 := by
      have := congrArg (fun v : Word => v &&& 0x0000FF00#32) h
      simpa [BitVec.and_assoc] using this
    have h2 : packFields op port off mode lv pin &&& 0x000000FF#32 = 0#32 := by
      have := congrArg (fun v : Word => v &&& 0x000000FF#32) h
      simpa [BitVec.and_assoc] using this
    exact ⟨(pack_and_FF00 op port off mode lv pin).mp h1, (pack_and_00FF op port off mode lv pin).mp h2⟩
  · rintro ⟨rfl, rfl, rfl, rfl⟩
    apply BitVec.eq_of_getLsbD_eq
    intro k hk
    rw [BitVec.getLsbD_and, packFields_bit]
    interval_cases k <;> simp

/-- Every field but OP zero is what the mask 0xFFFFFF asks. -/
theorem pack_and_FFFFFF : packFields op port off mode lv pin &&& 0x00FFFFFF#32 = 0#32 ↔
    port = 0#8 ∧ off = 0#8 ∧ mode = 0#2 ∧ lv = 0#1 ∧ pin = 0#5 := by
  constructor
  · intro h
    have h1 : packFields op port off mode lv pin &&& 0x0000FFFF#32 = 0#32 := by
      have := congrArg (fun v : Word => v &&& 0x0000FFFF#32) h
      simpa [BitVec.and_assoc] using this
    refine ⟨?_, (pack_and_FFFF op port off mode lv pin).mp h1⟩
    apply BitVec.eq_of_getLsbD_eq
    intro k hk
    have := bit_of_and_eq_zero h (k + 16) (by interval_cases k <;> decide)
    rw [packFields_bit] at this
    iterate 4 rw [if_neg (by omega)] at this
    rw [if_pos (by omega), show k + 16 - 16 = k by omega] at this
    simpa using this
  · rintro ⟨rfl, rfl, rfl, rfl, rfl⟩
    apply BitVec.eq_of_getLsbD_eq
    intro k hk
    rw [BitVec.getLsbD_and, packFields_bit]
    interval_cases k <;> simp

/-! What decode answers. -/

/-- A transition's source mode is not its target. -/
theorem transitionTo_target {target source : Mode} {port : PortId} {pin : PinIdx} {i : Instr}
    (h : transitionTo target source port pin = some i) : source ≠ target := by
  rintro rfl
  cases source <;> cases h

/-- The checks on a stream with a first word. -/
theorem decode_cons (w0 : Word) (rest : List Word) : decode (w0 :: rest) =
    match Opcode.ofCode (fieldOp w0) with
    | none => .error .illegalOpcode
    | some o =>
      if rest.length + 1 < o.len then .error .truncated
      else if w0 &&& o.mustBeZero ≠ 0 then .error .reservedFieldNonzero
      else o.build w0 (rest.getD 0 0) (rest.getD 1 0) := rfl

/-- The command an opcode builds has that opcode. -/
theorem build_opcode {o : Opcode} {w0 w1 w2 : Word} {i : Instr} (h : o.build w0 w1 w2 = .ok i) : i.opcode = o := by
  revert h
  cases o <;> simp only [Opcode.build, someOrRefuse, orRefuse]
  case intoInput | intoInputPu | intoOutput | intoOutputOd =>
    cases Mode.ofCode (fieldMode w0) <;> (intro h; cases h <;> rfl)
  all_goals (try split)
  all_goals (intro h; cases h <;> rfl)

/-- A command that decodes was selected by its opcode's code, all its words are there, and its must-be-zero fields are
zero. -/
theorem decode_ok {w0 : Word} {rest : List Word} {i : Instr} (h : decode (w0 :: rest) = .ok i) :
    fieldOp w0 = i.opcode.code ∧ i.opcode.len ≤ rest.length + 1 ∧ w0 &&& i.opcode.mustBeZero = 0 := by
  rw [decode_cons] at h
  split at h
  · cases h
  rename_i o ho
  split at h
  · cases h
  rename_i hlen
  split at h
  · cases h
  rename_i hzero
  rw [build_opcode h]
  exact ⟨(opcode_code_of_ofCode ho).symm, by omega, by simpa using hzero⟩

end Sys2Proof.Laws
end

