-- ==== Sys2Proof/Laws/RegFile.lean ====
section
/-! SUPPORT. Laws of the register file: read after write, and that every write keeps the canonical form. -/

namespace Sys2Proof.Laws

open Sys2Proof.Machine

@[simp] theorem portRegs_get_set (v : PortRegs) (r r' : StoredReg) (w : Word) :
    (v.set r w).get r' = if r' = r then w else v.get r' := by
  cases r <;> cases r' <;> simp [PortRegs.get, PortRegs.set]

theorem portRegs_ext (v w : PortRegs) (h : ∀ r, v.get r = w.get r) : v = w := by
  have hd := h .dir
  have ho := h .out
  have hod := h .od
  have hp := h .pu
  cases v; cases w; simp_all [PortRegs.get]

@[simp] theorem regFileGet_nil (q : PortId) : regFileGet [] q = none := rfl

theorem regFileGet_cons (a q : PortId) (w : PortRegs) (rest : RegFile) :
    regFileGet ((a, w) :: rest) q = if q = a then some w else regFileGet rest q := by
  by_cases h : q = a
  · simp [regFileGet, List.lookup, h]
  · simp [regFileGet, List.lookup, h, beq_false_of_ne h]

theorem regFileGet_insert (p q : PortId) (v : PortRegs) (f : RegFile) (hp : ∀ e ∈ f, e.1 ≠ p) :
    regFileGet (regFileInsert p v f) q = if q = p then some v else regFileGet f q := by
  induction f with
  | nil => simp [regFileInsert, regFileGet_cons]
  | cons e rest ih =>
    obtain ⟨a, w⟩ := e
    have ha : a ≠ p := hp (a, w) (by simp)
    unfold regFileInsert
    split
    · simp [regFileGet_cons]
    · rw [regFileGet_cons, ih fun e he => hp e (by simp [he]), regFileGet_cons]
      by_cases hq : q = a
      · subst hq; simp [ha]
      · simp [hq]

theorem regFileGet_filter (p q : PortId) (f : RegFile) :
    regFileGet (f.filter fun e => e.1 != p) q = if q = p then none else regFileGet f q := by
  induction f with
  | nil => simp
  | cons e rest ih =>
    obtain ⟨a, w⟩ := e
    by_cases ha : a = p
    · subst ha
      rw [List.filter_cons_of_neg (by simp), ih, regFileGet_cons]
      by_cases hq : q = a <;> simp [hq]
    · rw [List.filter_cons_of_pos (by simpa using ha), regFileGet_cons, ih, regFileGet_cons]
      by_cases hq : q = a
      · subst hq; simp [ha]
      · simp [hq]

/-- What a port reads after a register set has been put, whatever form the list had. -/
theorem regFileGet_put {u : PortRegs} (p q : PortId) (v unlisted : PortRegs) (f : RegFile) :
    (regFileGet (regFilePut p v unlisted f) q).getD (if q = p then unlisted else u) =
      if q = p then v else (regFileGet f q).getD u := by
  unfold regFilePut
  by_cases hv : v = unlisted
  · by_cases hq : q = p <;> simp [hv, hq, regFileGet_filter]
  · have hf : ∀ e ∈ f.filter (fun e => e.1 != p), e.1 ≠ p := by simp
    by_cases hq : q = p <;> simp [hv, hq, regFileGet_insert p _ v _ hf, regFileGet_filter]

theorem mem_insert (p : PortId) (v : PortRegs) (f : RegFile) (e : PortId × PortRegs) :
    e ∈ regFileInsert p v f ↔ e = (p, v) ∨ e ∈ f := by
  induction f with
  | nil => simp [regFileInsert]
  | cons a rest ih =>
    unfold regFileInsert
    split
    · simp
    · simp only [List.mem_cons, ih]; tauto

theorem insert_pairwise (p : PortId) (v : PortRegs) (f : RegFile) (hp : ∀ e ∈ f, e.1 ≠ p)
    (hf : f.Pairwise fun a b => a.1.toNat < b.1.toNat) :
    (regFileInsert p v f).Pairwise fun a b => a.1.toNat < b.1.toNat := by
  induction f with
  | nil => simp [regFileInsert]
  | cons a rest ih =>
    obtain ⟨hall, hrest⟩ := List.pairwise_cons.mp hf
    have hne : a.1.toNat ≠ p.toNat := fun h => hp a (by simp) (BitVec.eq_of_toNat_eq h)
    unfold regFileInsert
    split
    · rename_i hlt
      refine List.pairwise_cons.mpr ⟨fun e he => ?_, hf⟩
      rcases List.mem_cons.mp he with rfl | he
      · exact hlt
      · exact lt_trans hlt (hall e he)
    · rename_i hlt
      refine List.pairwise_cons.mpr ⟨fun e he => ?_, ih (fun e he => hp e (by simp [he])) hrest⟩
      rcases (mem_insert p v rest e).mp he with rfl | he
      · simp at hlt ⊢; omega
      · exact hall e he

/-- Putting a register set keeps the ports rising. -/
theorem put_pairwise (p : PortId) (v unlisted : PortRegs) (f : RegFile)
    (hf : f.Pairwise fun a b => a.1.toNat < b.1.toNat) :
    (regFilePut p v unlisted f).Pairwise fun a b => a.1.toNat < b.1.toNat := by
  have hfil := hf.filter (fun e => e.1 != p)
  unfold regFilePut
  split
  · exact hfil
  · exact insert_pairwise p v _ (by simp) hfil

/-- What stands in the list after a register set has been put. -/
theorem mem_put (p : PortId) (v unlisted : PortRegs) (f : RegFile) (e : PortId × PortRegs)
    (he : e ∈ regFilePut p v unlisted f) : (e = (p, v) ∧ v ≠ unlisted) ∨ (e ∈ f ∧ e.1 ≠ p) := by
  unfold regFilePut at he
  split at he
  · simp at he; exact .inr he
  · rename_i hv
    rcases (mem_insert p v _ e).mp he with rfl | he
    · exact .inl ⟨rfl, hv⟩
    · simp at he; exact .inr he

end Sys2Proof.Laws
end

