-- ==== Sys2Proof/Laws/State.lean ====
section
/-! SUPPORT. One lemma for each field under each shared operation, and the stored registers under each of them. -/

namespace Sys2Proof.Laws

open Sys2Proof.Machine

@[simp] theorem store_config (p : PortId) (r : StoredReg) (v : Word) (s : State) : (s.store p r v).config = s.config := rfl
@[simp] theorem store_stream (p : PortId) (r : StoredReg) (v : Word) (s : State) : (s.store p r v).stream = s.stream := rfl
@[simp] theorem store_pc (p : PortId) (r : StoredReg) (v : Word) (s : State) : (s.store p r v).pc = s.pc := rfl
@[simp] theorem store_status (p : PortId) (r : StoredReg) (v : Word) (s : State) : (s.store p r v).status = s.status := rfl
@[simp] theorem store_result (p : PortId) (r : StoredReg) (v : Word) (s : State) : (s.store p r v).result = s.result := rfl
@[simp] theorem store_freq (p : PortId) (r : StoredReg) (v : Word) (s : State) : (s.store p r v).freq = s.freq := rfl
@[simp] theorem store_cnt (p : PortId) (r : StoredReg) (v : Word) (s : State) : (s.store p r v).cnt = s.cnt := rfl
@[simp] theorem store_ticks (p : PortId) (r : StoredReg) (v : Word) (s : State) : (s.store p r v).ticks = s.ticks := rfl
@[simp] theorem store_events (p : PortId) (r : StoredReg) (v : Word) (s : State) : (s.store p r v).events = s.events := rfl
@[simp] theorem store_samples (p : PortId) (r : StoredReg) (v : Word) (s : State) : (s.store p r v).samples = s.samples := rfl
@[simp] theorem store_draws (p : PortId) (r : StoredReg) (v : Word) (s : State) : (s.store p r v).draws = s.draws := rfl

@[simp] theorem log_config (e : Event) (s : State) : (s.log e).config = s.config := rfl
@[simp] theorem log_stream (e : Event) (s : State) : (s.log e).stream = s.stream := rfl
@[simp] theorem log_pc (e : Event) (s : State) : (s.log e).pc = s.pc := rfl
@[simp] theorem log_status (e : Event) (s : State) : (s.log e).status = s.status := rfl
@[simp] theorem log_result (e : Event) (s : State) : (s.log e).result = s.result := rfl
@[simp] theorem log_regs (e : Event) (s : State) : (s.log e).regs = s.regs := rfl
@[simp] theorem log_freq (e : Event) (s : State) : (s.log e).freq = s.freq := rfl
@[simp] theorem log_cnt (e : Event) (s : State) : (s.log e).cnt = s.cnt := rfl
@[simp] theorem log_ticks (e : Event) (s : State) : (s.log e).ticks = s.ticks := rfl
@[simp] theorem log_samples (e : Event) (s : State) : (s.log e).samples = s.samples := rfl
@[simp] theorem log_draws (e : Event) (s : State) : (s.log e).draws = s.draws := rfl
@[simp] theorem log_events (e : Event) (s : State) : (s.log e).events = s.events ++ [e] := rfl

@[simp] theorem afterDraw_config (s : State) : (s.afterDraw).config = s.config := rfl
@[simp] theorem afterDraw_stream (s : State) : (s.afterDraw).stream = s.stream := rfl
@[simp] theorem afterDraw_pc (s : State) : (s.afterDraw).pc = s.pc := rfl
@[simp] theorem afterDraw_status (s : State) : (s.afterDraw).status = s.status := rfl
@[simp] theorem afterDraw_result (s : State) : (s.afterDraw).result = s.result := rfl
@[simp] theorem afterDraw_regs (s : State) : (s.afterDraw).regs = s.regs := rfl
@[simp] theorem afterDraw_freq (s : State) : (s.afterDraw).freq = s.freq := rfl
@[simp] theorem afterDraw_cnt (s : State) : (s.afterDraw).cnt = s.cnt := rfl
@[simp] theorem afterDraw_ticks (s : State) : (s.afterDraw).ticks = s.ticks := rfl
@[simp] theorem afterDraw_events (s : State) : (s.afterDraw).events = s.events := rfl
@[simp] theorem afterDraw_samples (s : State) : s.afterDraw.samples = s.samples.tail := rfl
@[simp] theorem afterDraw_draws (s : State) : s.afterDraw.draws = s.draws + 1 := rfl

@[simp] theorem regWrite_config (p : PortId) (r : StoredReg) (v : Word) (s : State) : (regWrite p r v s).config = s.config := rfl
@[simp] theorem regWrite_stream (p : PortId) (r : StoredReg) (v : Word) (s : State) : (regWrite p r v s).stream = s.stream := rfl
@[simp] theorem regWrite_pc (p : PortId) (r : StoredReg) (v : Word) (s : State) : (regWrite p r v s).pc = s.pc := rfl
@[simp] theorem regWrite_status (p : PortId) (r : StoredReg) (v : Word) (s : State) : (regWrite p r v s).status = s.status := rfl
@[simp] theorem regWrite_result (p : PortId) (r : StoredReg) (v : Word) (s : State) : (regWrite p r v s).result = s.result := rfl
@[simp] theorem regWrite_freq (p : PortId) (r : StoredReg) (v : Word) (s : State) : (regWrite p r v s).freq = s.freq := rfl
@[simp] theorem regWrite_cnt (p : PortId) (r : StoredReg) (v : Word) (s : State) : (regWrite p r v s).cnt = s.cnt := rfl
@[simp] theorem regWrite_ticks (p : PortId) (r : StoredReg) (v : Word) (s : State) : (regWrite p r v s).ticks = s.ticks := rfl
@[simp] theorem regWrite_samples (p : PortId) (r : StoredReg) (v : Word) (s : State) : (regWrite p r v s).samples = s.samples := rfl
@[simp] theorem regWrite_draws (p : PortId) (r : StoredReg) (v : Word) (s : State) : (regWrite p r v s).draws = s.draws := rfl
@[simp] theorem regWrite_events (p : PortId) (r : StoredReg) (v : Word) (s : State) :
    (regWrite p r v s).events = s.events ++ [.wr p r v] := rfl

@[simp] theorem setResult_config (v : Word) (s : State) : (setResult v s).config = s.config := rfl
@[simp] theorem setResult_stream (v : Word) (s : State) : (setResult v s).stream = s.stream := rfl
@[simp] theorem setResult_pc (v : Word) (s : State) : (setResult v s).pc = s.pc := rfl
@[simp] theorem setResult_status (v : Word) (s : State) : (setResult v s).status = s.status := rfl
@[simp] theorem setResult_regs (v : Word) (s : State) : (setResult v s).regs = s.regs := rfl
@[simp] theorem setResult_freq (v : Word) (s : State) : (setResult v s).freq = s.freq := rfl
@[simp] theorem setResult_cnt (v : Word) (s : State) : (setResult v s).cnt = s.cnt := rfl
@[simp] theorem setResult_ticks (v : Word) (s : State) : (setResult v s).ticks = s.ticks := rfl
@[simp] theorem setResult_samples (v : Word) (s : State) : (setResult v s).samples = s.samples := rfl
@[simp] theorem setResult_draws (v : Word) (s : State) : (setResult v s).draws = s.draws := rfl
@[simp] theorem setResult_result (v : Word) (s : State) : (setResult v s).result = some v := rfl
@[simp] theorem setResult_events (v : Word) (s : State) : (setResult v s).events = s.events ++ [.res v] := rfl

@[simp] theorem advance_config (n : Nat) (s : State) : (advance n s).config = s.config := rfl
@[simp] theorem advance_stream (n : Nat) (s : State) : (advance n s).stream = s.stream := rfl
@[simp] theorem advance_status (n : Nat) (s : State) : (advance n s).status = s.status := rfl
@[simp] theorem advance_result (n : Nat) (s : State) : (advance n s).result = s.result := rfl
@[simp] theorem advance_regs (n : Nat) (s : State) : (advance n s).regs = s.regs := rfl
@[simp] theorem advance_freq (n : Nat) (s : State) : (advance n s).freq = s.freq := rfl
@[simp] theorem advance_cnt (n : Nat) (s : State) : (advance n s).cnt = s.cnt := rfl
@[simp] theorem advance_ticks (n : Nat) (s : State) : (advance n s).ticks = s.ticks := rfl
@[simp] theorem advance_events (n : Nat) (s : State) : (advance n s).events = s.events := rfl
@[simp] theorem advance_samples (n : Nat) (s : State) : (advance n s).samples = s.samples := rfl
@[simp] theorem advance_draws (n : Nat) (s : State) : (advance n s).draws = s.draws := rfl
@[simp] theorem advance_pc (n : Nat) (s : State) : (advance n s).pc = s.pc + n := rfl

@[simp] theorem abort_config (p : PortId) (s : State) : (abortInvalidPort p s).config = s.config := rfl
@[simp] theorem abort_stream (p : PortId) (s : State) : (abortInvalidPort p s).stream = s.stream := rfl
@[simp] theorem abort_pc (p : PortId) (s : State) : (abortInvalidPort p s).pc = s.pc := rfl
@[simp] theorem abort_result (p : PortId) (s : State) : (abortInvalidPort p s).result = s.result := rfl
@[simp] theorem abort_regs (p : PortId) (s : State) : (abortInvalidPort p s).regs = s.regs := rfl
@[simp] theorem abort_freq (p : PortId) (s : State) : (abortInvalidPort p s).freq = s.freq := rfl
@[simp] theorem abort_cnt (p : PortId) (s : State) : (abortInvalidPort p s).cnt = s.cnt := rfl
@[simp] theorem abort_ticks (p : PortId) (s : State) : (abortInvalidPort p s).ticks = s.ticks := rfl
@[simp] theorem abort_samples (p : PortId) (s : State) : (abortInvalidPort p s).samples = s.samples := rfl
@[simp] theorem abort_draws (p : PortId) (s : State) : (abortInvalidPort p s).draws = s.draws := rfl
@[simp] theorem abort_status (p : PortId) (s : State) : (abortInvalidPort p s).status = .abortedInvalidPort p := rfl
@[simp] theorem abort_events (p : PortId) (s : State) : (abortInvalidPort p s).events = s.events ++ [.abort p] := rfl

@[simp] theorem refuse_config (why : RefusalReason) (s : State) : (refuse why s).config = s.config := rfl
@[simp] theorem refuse_stream (why : RefusalReason) (s : State) : (refuse why s).stream = s.stream := rfl
@[simp] theorem refuse_pc (why : RefusalReason) (s : State) : (refuse why s).pc = s.pc := rfl
@[simp] theorem refuse_result (why : RefusalReason) (s : State) : (refuse why s).result = s.result := rfl
@[simp] theorem refuse_regs (why : RefusalReason) (s : State) : (refuse why s).regs = s.regs := rfl
@[simp] theorem refuse_freq (why : RefusalReason) (s : State) : (refuse why s).freq = s.freq := rfl
@[simp] theorem refuse_cnt (why : RefusalReason) (s : State) : (refuse why s).cnt = s.cnt := rfl
@[simp] theorem refuse_ticks (why : RefusalReason) (s : State) : (refuse why s).ticks = s.ticks := rfl
@[simp] theorem refuse_events (why : RefusalReason) (s : State) : (refuse why s).events = s.events := rfl
@[simp] theorem refuse_samples (why : RefusalReason) (s : State) : (refuse why s).samples = s.samples := rfl
@[simp] theorem refuse_draws (why : RefusalReason) (s : State) : (refuse why s).draws = s.draws := rfl
@[simp] theorem refuse_status (why : RefusalReason) (s : State) : (refuse why s).status = .refused why := rfl

@[simp] theorem fault_config (s : State) : (faultDelayUnconfigured s).config = s.config := rfl
@[simp] theorem fault_stream (s : State) : (faultDelayUnconfigured s).stream = s.stream := rfl
@[simp] theorem fault_pc (s : State) : (faultDelayUnconfigured s).pc = s.pc := rfl
@[simp] theorem fault_result (s : State) : (faultDelayUnconfigured s).result = s.result := rfl
@[simp] theorem fault_regs (s : State) : (faultDelayUnconfigured s).regs = s.regs := rfl
@[simp] theorem fault_freq (s : State) : (faultDelayUnconfigured s).freq = s.freq := rfl
@[simp] theorem fault_cnt (s : State) : (faultDelayUnconfigured s).cnt = s.cnt := rfl
@[simp] theorem fault_ticks (s : State) : (faultDelayUnconfigured s).ticks = s.ticks := rfl
@[simp] theorem fault_events (s : State) : (faultDelayUnconfigured s).events = s.events := rfl
@[simp] theorem fault_samples (s : State) : (faultDelayUnconfigured s).samples = s.samples := rfl
@[simp] theorem fault_draws (s : State) : (faultDelayUnconfigured s).draws = s.draws := rfl
@[simp] theorem fault_status (s : State) : (faultDelayUnconfigured s).status = .faultedDelayUnconfigured := rfl

@[simp] theorem spin_config (c : Count) (s : State) : (spin c s).config = s.config := rfl
@[simp] theorem spin_stream (c : Count) (s : State) : (spin c s).stream = s.stream := rfl
@[simp] theorem spin_pc (c : Count) (s : State) : (spin c s).pc = s.pc := rfl
@[simp] theorem spin_status (c : Count) (s : State) : (spin c s).status = s.status := rfl
@[simp] theorem spin_result (c : Count) (s : State) : (spin c s).result = s.result := rfl
@[simp] theorem spin_regs (c : Count) (s : State) : (spin c s).regs = s.regs := rfl
@[simp] theorem spin_freq (c : Count) (s : State) : (spin c s).freq = s.freq := rfl
@[simp] theorem spin_events (c : Count) (s : State) : (spin c s).events = s.events := rfl
@[simp] theorem spin_samples (c : Count) (s : State) : (spin c s).samples = s.samples := rfl
@[simp] theorem spin_draws (c : Count) (s : State) : (spin c s).draws = s.draws := rfl
@[simp] theorem spin_cnt (c : Count) (s : State) : (spin c s).cnt = 0 := rfl
@[simp] theorem spin_ticks (c : Count) (s : State) : (spin c s).ticks = s.ticks + c.toNat := rfl

@[simp] theorem tick_config (s : State) : (tick s).config = s.config := rfl
@[simp] theorem tick_stream (s : State) : (tick s).stream = s.stream := rfl
@[simp] theorem tick_pc (s : State) : (tick s).pc = s.pc := rfl
@[simp] theorem tick_status (s : State) : (tick s).status = s.status := rfl
@[simp] theorem tick_result (s : State) : (tick s).result = s.result := rfl
@[simp] theorem tick_regs (s : State) : (tick s).regs = s.regs := rfl
@[simp] theorem tick_freq (s : State) : (tick s).freq = s.freq := rfl
@[simp] theorem tick_cnt (s : State) : (tick s).cnt = s.cnt := rfl
@[simp] theorem tick_events (s : State) : (tick s).events = s.events := rfl
@[simp] theorem tick_samples (s : State) : (tick s).samples = s.samples := rfl
@[simp] theorem tick_draws (s : State) : (tick s).draws = s.draws := rfl
@[simp] theorem tick_ticks (s : State) : (tick s).ticks = s.ticks + 1 := rfl

@[simp] theorem spinTimes_config (n : Nat) (c : Count) (s : State) : (spinTimes n c s).config = s.config := by
  unfold spinTimes; split <;> rfl
@[simp] theorem spinTimes_stream (n : Nat) (c : Count) (s : State) : (spinTimes n c s).stream = s.stream := by
  unfold spinTimes; split <;> rfl
@[simp] theorem spinTimes_pc (n : Nat) (c : Count) (s : State) : (spinTimes n c s).pc = s.pc := by
  unfold spinTimes; split <;> rfl
@[simp] theorem spinTimes_status (n : Nat) (c : Count) (s : State) : (spinTimes n c s).status = s.status := by
  unfold spinTimes; split <;> rfl
@[simp] theorem spinTimes_result (n : Nat) (c : Count) (s : State) : (spinTimes n c s).result = s.result := by
  unfold spinTimes; split <;> rfl
@[simp] theorem spinTimes_regs (n : Nat) (c : Count) (s : State) : (spinTimes n c s).regs = s.regs := by
  unfold spinTimes; split <;> rfl
@[simp] theorem spinTimes_freq (n : Nat) (c : Count) (s : State) : (spinTimes n c s).freq = s.freq := by
  unfold spinTimes; split <;> rfl
@[simp] theorem spinTimes_events (n : Nat) (c : Count) (s : State) : (spinTimes n c s).events = s.events := by
  unfold spinTimes; split <;> rfl
@[simp] theorem spinTimes_samples (n : Nat) (c : Count) (s : State) : (spinTimes n c s).samples = s.samples := by
  unfold spinTimes; split <;> rfl
@[simp] theorem spinTimes_draws (n : Nat) (c : Count) (s : State) : (spinTimes n c s).draws = s.draws := by
  unfold spinTimes; split <;> rfl
@[simp] theorem spinTimes_ticks (n : Nat) (c : Count) (s : State) : (spinTimes n c s).ticks = s.ticks + n * c.toNat := by
  unfold spinTimes; split <;> simp_all
theorem spinTimes_cnt (n : Nat) (c : Count) (s : State) : (spinTimes n c s).cnt = if n = 0 then s.cnt else 0 := by
  unfold spinTimes; split <;> rfl

/-! The stored registers. -/

theorem stored_congr {s t : State} (hc : t.config = s.config) (hr : t.regs = s.regs) (q : PortId) (r : StoredReg) :
    t.stored q r = s.stored q r := by
  simp [State.stored, State.portRegs, hc, hr]

@[simp] theorem store_portRegs (p : PortId) (r : StoredReg) (v : Word) (s : State) (q : PortId) :
    (s.store p r v).portRegs q = if q = p then (s.portRegs p).set r v else s.portRegs q := by
  have h := regFileGet_put (u := s.config.resetRegs q) p q ((s.portRegs p).set r v) (s.config.resetRegs p) s.regs
  by_cases hq : q = p
  · subst hq; simpa [State.portRegs, State.store] using h
  · simpa [State.portRegs, State.store, hq] using h

/-- Read after write: the register written holds the value, and every other register of every port is as before. -/
@[simp] theorem store_stored (p : PortId) (r : StoredReg) (v : Word) (s : State) (q : PortId) (r' : StoredReg) :
    (s.store p r v).stored q r' = if q = p ∧ r' = r then v else s.stored q r' := by
  by_cases hq : q = p
  · subst hq; simp [State.stored]
  · simp [State.stored, hq]

@[simp] theorem regWrite_stored (p : PortId) (r : StoredReg) (v : Word) (s : State) (q : PortId) (r' : StoredReg) :
    (regWrite p r v s).stored q r' = if q = p ∧ r' = r then v else s.stored q r' := store_stored p r v s q r'

@[simp] theorem log_stored (e : Event) (s : State) (q : PortId) (r' : StoredReg) :
    (s.log e).stored q r' = s.stored q r' := rfl
@[simp] theorem afterDraw_stored (s : State) (q : PortId) (r' : StoredReg) :
    (s.afterDraw).stored q r' = s.stored q r' := rfl
@[simp] theorem setResult_stored (v : Word) (s : State) (q : PortId) (r' : StoredReg) :
    (setResult v s).stored q r' = s.stored q r' := rfl
@[simp] theorem advance_stored (n : Nat) (s : State) (q : PortId) (r' : StoredReg) :
    (advance n s).stored q r' = s.stored q r' := rfl
@[simp] theorem abort_stored (p : PortId) (s : State) (q : PortId) (r' : StoredReg) :
    (abortInvalidPort p s).stored q r' = s.stored q r' := rfl
@[simp] theorem refuse_stored (why : RefusalReason) (s : State) (q : PortId) (r' : StoredReg) :
    (refuse why s).stored q r' = s.stored q r' := rfl
@[simp] theorem fault_stored (s : State) (q : PortId) (r' : StoredReg) :
    (faultDelayUnconfigured s).stored q r' = s.stored q r' := rfl
@[simp] theorem spin_stored (c : Count) (s : State) (q : PortId) (r' : StoredReg) :
    (spin c s).stored q r' = s.stored q r' := rfl
@[simp] theorem tick_stored (s : State) (q : PortId) (r' : StoredReg) :
    (tick s).stored q r' = s.stored q r' := rfl
@[simp] theorem spinTimes_stored (n : Nat) (c : Count) (s : State) (q : PortId) (r : StoredReg) :
    (spinTimes n c s).stored q r = s.stored q r := stored_congr (by simp) (by simp) q r

/-! The canonical form. -/

theorem regsCanonical_congr {s t : State} (hc : t.config = s.config) (hr : t.regs = s.regs) :
    t.regsCanonical = s.regsCanonical := by
  simp [State.regsCanonical, hc, hr]

/-- A write to a valid port keeps the canonical form. -/
theorem store_canonical (p : PortId) (r : StoredReg) (v : Word) (s : State) (hv : s.config.validPort p = true)
    (hs : s.regsCanonical = true) : (s.store p r v).regsCanonical = true := by
  simp only [State.regsCanonical, Bool.and_eq_true, decide_eq_true_eq, List.all_eq_true] at hs ⊢
  refine ⟨put_pairwise p _ _ _ hs.1, fun e he => ?_⟩
  rcases mem_put p _ _ _ e he with ⟨rfl, hne⟩ | ⟨he, -⟩
  · exact ⟨hv, hne⟩
  · exact hs.2 e he

/-- Right after reset nothing is listed, which is canonical. -/
theorem resetWith_canonical (c : Config) : (State.resetWith c).regsCanonical = true := by
  simp [State.regsCanonical, State.resetWith]

end Sys2Proof.Laws
end

