-- ==== Sys2Proof/Laws/Ops.lean ====
section
/-! SUPPORT. One spec lemma for each shared operation: the reads, the masked modify, the pin steps, and the ends of a command. -/

namespace Sys2Proof.Laws

open Sys2Proof.Machine

/-! Masks and bits. -/

@[simp] theorem pinMask_bit (i : PinIdx) (k : Nat) : (pinMask i).getLsbD k = decide (k = i.toNat) := by
  have hi : i.toNat < 32 := i.isLt
  unfold pinMask
  by_cases hk : k = i.toNat
  · subst hk; simp [hi]
  · by_cases hlt : k < i.toNat
    · simp [hlt, hk]
    · have : k - i.toNat ≠ 0 := by omega
      simp [BitVec.getLsbD_shiftLeft, hk, BitVec.getLsbD_one, this]

/-- The modify law, bit by bit: set wins, then clear, otherwise the bit read (R85). -/
theorem maskedUpdate_bit (t clr set : Word) (k : Nat) (hk : k < 32) :
    (maskedUpdate t clr set).getLsbD k = (set.getLsbD k || (t.getLsbD k && !clr.getLsbD k)) := by
  simp [maskedUpdate, hk, Bool.or_comm]

/-- The level of a pin in a value is the pin's bit. -/
theorem levelOf_eq (t : Word) (i : PinIdx) : levelOf t i = if t.getLsbD i.toNat then .high else .low := by
  have hi : i.toNat < 32 := i.isLt
  have h : (t &&& pinMask i ≠ 0) ↔ t.getLsbD i.toNat = true := by
    constructor
    · intro hne
      by_contra hb
      apply hne
      apply BitVec.eq_of_getLsbD_eq
      intro k hk
      by_cases hki : k = i.toNat
      · subst hki; simpa using hb
      · simp [hki]
    · intro hb h0
      have := congrArg (fun w : Word => w.getLsbD i.toNat) h0
      simp [hb] at this
  unfold levelOf
  by_cases hb : t.getLsbD i.toNat <;> simp_all

/-! Reads. -/

/-- On a fully implemented port a read of a stored register returns the stored value (R26, R46). -/
theorem readValue_full (s : State) (p : PortId) (r : StoredReg) (h : s.config.fullPort p = true) :
    s.readValue p (.stored r) = s.stored p r := by
  simp [State.readValue, h]

/-- At an implemented pin a read of a stored register returns the stored bit (R26). -/
theorem readValue_bit (s : State) (p : PortId) (r : StoredReg) (k : Nat)
    (h : (s.config.implemented p).getLsbD k = true) :
    (s.readValue p (.stored r)).getLsbD k = (s.stored p r).getLsbD k := by
  unfold State.readValue
  by_cases hf : s.config.fullPort p = true <;> simp [hf, h]

/-- The implemented part of what a read returns is the stored value's. -/
theorem readValue_implemented (s : State) (p : PortId) (r : StoredReg) :
    s.readValue p (.stored r) &&& s.config.implemented p = s.stored p r &&& s.config.implemented p := by
  apply BitVec.eq_of_getLsbD_eq
  intro k hk
  by_cases h : (s.config.implemented p).getLsbD k <;> simp [h, readValue_bit]

@[simp] theorem readValue_input (s : State) (p : PortId) : s.readValue p .input = s.drawValue := rfl

@[simp] theorem regRead_value (p : PortId) (off : Reg) (s : State) : (regRead p off s).1 = s.readValue p off := rfl
@[simp] theorem regRead_config (p : PortId) (off : Reg) (s : State) : (regRead p off s).2.config = s.config := by
  unfold regRead; cases s.readDraws p off <;> rfl
@[simp] theorem regRead_stream (p : PortId) (off : Reg) (s : State) : (regRead p off s).2.stream = s.stream := by
  unfold regRead; cases s.readDraws p off <;> rfl
@[simp] theorem regRead_pc (p : PortId) (off : Reg) (s : State) : (regRead p off s).2.pc = s.pc := by
  unfold regRead; cases s.readDraws p off <;> rfl
@[simp] theorem regRead_status (p : PortId) (off : Reg) (s : State) : (regRead p off s).2.status = s.status := by
  unfold regRead; cases s.readDraws p off <;> rfl
@[simp] theorem regRead_result (p : PortId) (off : Reg) (s : State) : (regRead p off s).2.result = s.result := by
  unfold regRead; cases s.readDraws p off <;> rfl
@[simp] theorem regRead_regs (p : PortId) (off : Reg) (s : State) : (regRead p off s).2.regs = s.regs := by
  unfold regRead; cases s.readDraws p off <;> rfl
@[simp] theorem regRead_freq (p : PortId) (off : Reg) (s : State) : (regRead p off s).2.freq = s.freq := by
  unfold regRead; cases s.readDraws p off <;> rfl
@[simp] theorem regRead_cnt (p : PortId) (off : Reg) (s : State) : (regRead p off s).2.cnt = s.cnt := by
  unfold regRead; cases s.readDraws p off <;> rfl
@[simp] theorem regRead_ticks (p : PortId) (off : Reg) (s : State) : (regRead p off s).2.ticks = s.ticks := by
  unfold regRead; cases s.readDraws p off <;> rfl
@[simp] theorem regRead_events (p : PortId) (off : Reg) (s : State) :
    (regRead p off s).2.events = s.events ++ [.rd p off (s.readValue p off)] := by
  unfold regRead; cases s.readDraws p off <;> rfl
theorem regRead_samples (p : PortId) (off : Reg) (s : State) :
    (regRead p off s).2.samples = if s.readDraws p off then s.samples.tail else s.samples := by
  unfold regRead; cases s.readDraws p off <;> rfl
theorem regRead_draws (p : PortId) (off : Reg) (s : State) :
    (regRead p off s).2.draws = if s.readDraws p off then s.draws + 1 else s.draws := by
  unfold regRead; cases s.readDraws p off <;> rfl
@[simp] theorem regRead_stored (p : PortId) (off : Reg) (s : State) (q : PortId) (r : StoredReg) :
    (regRead p off s).2.stored q r = s.stored q r := stored_congr (by simp) (by simp) q r

/-- A read of a stored register on a fully implemented port draws nothing. -/
theorem readDraws_full (s : State) (p : PortId) (r : StoredReg) (h : s.config.fullPort p = true) :
    s.readDraws p (.stored r) = false := by
  simp [State.readDraws, h]

/-! The masked modify (R84, R85). -/

@[simp] theorem regModify_config (p : PortId) (r : StoredReg) (clr set : Word) (s : State) :
    (regModify p r clr set s).config = s.config := by
  simp [regModify]
@[simp] theorem regModify_stream (p : PortId) (r : StoredReg) (clr set : Word) (s : State) :
    (regModify p r clr set s).stream = s.stream := by
  simp [regModify]
@[simp] theorem regModify_pc (p : PortId) (r : StoredReg) (clr set : Word) (s : State) :
    (regModify p r clr set s).pc = s.pc := by
  simp [regModify]
@[simp] theorem regModify_status (p : PortId) (r : StoredReg) (clr set : Word) (s : State) :
    (regModify p r clr set s).status = s.status := by
  simp [regModify]
@[simp] theorem regModify_result (p : PortId) (r : StoredReg) (clr set : Word) (s : State) :
    (regModify p r clr set s).result = s.result := by
  simp [regModify]
@[simp] theorem regModify_freq (p : PortId) (r : StoredReg) (clr set : Word) (s : State) :
    (regModify p r clr set s).freq = s.freq := by
  simp [regModify]
@[simp] theorem regModify_cnt (p : PortId) (r : StoredReg) (clr set : Word) (s : State) :
    (regModify p r clr set s).cnt = s.cnt := by
  simp [regModify]
@[simp] theorem regModify_ticks (p : PortId) (r : StoredReg) (clr set : Word) (s : State) :
    (regModify p r clr set s).ticks = s.ticks := by
  simp [regModify]
@[simp] theorem regModify_events (p : PortId) (r : StoredReg) (clr set : Word) (s : State) :
    (regModify p r clr set s).events = s.events ++
      [.rd p (.stored r) (s.readValue p (.stored r)),
       .wr p r (maskedUpdate (s.readValue p (.stored r)) clr set)] := by
  simp [regModify]
@[simp] theorem regModify_stored (p : PortId) (r : StoredReg) (clr set : Word) (s : State) (q : PortId) (r' : StoredReg) :
    (regModify p r clr set s).stored q r' =
      if q = p ∧ r' = r then maskedUpdate (s.readValue p (.stored r)) clr set else s.stored q r' := by
  simp [regModify]
theorem regModify_samples_full (p : PortId) (r : StoredReg) (clr set : Word) (s : State) (h : s.config.fullPort p = true) :
    (regModify p r clr set s).samples = s.samples := by
  simp [regModify, regRead_samples, readDraws_full s p r h]
theorem regModify_draws_full (p : PortId) (r : StoredReg) (clr set : Word) (s : State) (h : s.config.fullPort p = true) :
    (regModify p r clr set s).draws = s.draws := by
  simp [regModify, regRead_draws, readDraws_full s p r h]

/-- What a modify stores at an implemented bit, in terms of what was stored (R85). -/
theorem regModify_bit (p : PortId) (r : StoredReg) (clr set : Word) (s : State) (k : Nat) (hk : k < 32)
    (himp : (s.config.implemented p).getLsbD k = true) :
    ((regModify p r clr set s).stored p r).getLsbD k =
      (set.getLsbD k || ((s.stored p r).getLsbD k && !clr.getLsbD k)) := by
  simp [maskedUpdate_bit _ _ _ k hk, readValue_bit s p r k himp]

/-! One pin's step: `Modify` with one mask `M(i)` and the other 0. -/

@[simp] theorem setPin_config (p : PortId) (r : StoredReg) (i : PinIdx) (s : State) :
    (setPin p r i s).config = s.config := by
  simp [setPin]
@[simp] theorem setPin_stream (p : PortId) (r : StoredReg) (i : PinIdx) (s : State) :
    (setPin p r i s).stream = s.stream := by
  simp [setPin]
@[simp] theorem setPin_pc (p : PortId) (r : StoredReg) (i : PinIdx) (s : State) :
    (setPin p r i s).pc = s.pc := by
  simp [setPin]
@[simp] theorem setPin_status (p : PortId) (r : StoredReg) (i : PinIdx) (s : State) :
    (setPin p r i s).status = s.status := by
  simp [setPin]
@[simp] theorem setPin_result (p : PortId) (r : StoredReg) (i : PinIdx) (s : State) :
    (setPin p r i s).result = s.result := by
  simp [setPin]
@[simp] theorem setPin_freq (p : PortId) (r : StoredReg) (i : PinIdx) (s : State) :
    (setPin p r i s).freq = s.freq := by
  simp [setPin]
@[simp] theorem setPin_cnt (p : PortId) (r : StoredReg) (i : PinIdx) (s : State) :
    (setPin p r i s).cnt = s.cnt := by
  simp [setPin]
@[simp] theorem setPin_ticks (p : PortId) (r : StoredReg) (i : PinIdx) (s : State) :
    (setPin p r i s).ticks = s.ticks := by
  simp [setPin]
@[simp] theorem setPin_events (p : PortId) (r : StoredReg) (i : PinIdx) (s : State) :
    (setPin p r i s).events = s.events ++
      [.rd p (.stored r) (s.readValue p (.stored r)),
       .wr p r (maskedUpdate (s.readValue p (.stored r)) 0 (pinMask i))] := by
  simp [setPin]
@[simp] theorem setPin_stored (p : PortId) (r : StoredReg) (i : PinIdx) (s : State) (q : PortId) (r' : StoredReg) :
    (setPin p r i s).stored q r' =
      if q = p ∧ r' = r then maskedUpdate (s.readValue p (.stored r)) 0 (pinMask i) else s.stored q r' := by
  simp [setPin]
theorem setPin_samples_full (p : PortId) (r : StoredReg) (i : PinIdx) (s : State) (h : s.config.fullPort p = true) :
    (setPin p r i s).samples = s.samples := regModify_samples_full p r _ _ s h
theorem setPin_draws_full (p : PortId) (r : StoredReg) (i : PinIdx) (s : State) (h : s.config.fullPort p = true) :
    (setPin p r i s).draws = s.draws := regModify_draws_full p r _ _ s h
@[simp] theorem clearPin_config (p : PortId) (r : StoredReg) (i : PinIdx) (s : State) :
    (clearPin p r i s).config = s.config := by
  simp [clearPin]
@[simp] theorem clearPin_stream (p : PortId) (r : StoredReg) (i : PinIdx) (s : State) :
    (clearPin p r i s).stream = s.stream := by
  simp [clearPin]
@[simp] theorem clearPin_pc (p : PortId) (r : StoredReg) (i : PinIdx) (s : State) :
    (clearPin p r i s).pc = s.pc := by
  simp [clearPin]
@[simp] theorem clearPin_status (p : PortId) (r : StoredReg) (i : PinIdx) (s : State) :
    (clearPin p r i s).status = s.status := by
  simp [clearPin]
@[simp] theorem clearPin_result (p : PortId) (r : StoredReg) (i : PinIdx) (s : State) :
    (clearPin p r i s).result = s.result := by
  simp [clearPin]
@[simp] theorem clearPin_freq (p : PortId) (r : StoredReg) (i : PinIdx) (s : State) :
    (clearPin p r i s).freq = s.freq := by
  simp [clearPin]
@[simp] theorem clearPin_cnt (p : PortId) (r : StoredReg) (i : PinIdx) (s : State) :
    (clearPin p r i s).cnt = s.cnt := by
  simp [clearPin]
@[simp] theorem clearPin_ticks (p : PortId) (r : StoredReg) (i : PinIdx) (s : State) :
    (clearPin p r i s).ticks = s.ticks := by
  simp [clearPin]
@[simp] theorem clearPin_events (p : PortId) (r : StoredReg) (i : PinIdx) (s : State) :
    (clearPin p r i s).events = s.events ++
      [.rd p (.stored r) (s.readValue p (.stored r)),
       .wr p r (maskedUpdate (s.readValue p (.stored r)) (pinMask i) 0)] := by
  simp [clearPin]
@[simp] theorem clearPin_stored (p : PortId) (r : StoredReg) (i : PinIdx) (s : State) (q : PortId) (r' : StoredReg) :
    (clearPin p r i s).stored q r' =
      if q = p ∧ r' = r then maskedUpdate (s.readValue p (.stored r)) (pinMask i) 0 else s.stored q r' := by
  simp [clearPin]
theorem clearPin_samples_full (p : PortId) (r : StoredReg) (i : PinIdx) (s : State) (h : s.config.fullPort p = true) :
    (clearPin p r i s).samples = s.samples := regModify_samples_full p r _ _ s h
theorem clearPin_draws_full (p : PortId) (r : StoredReg) (i : PinIdx) (s : State) (h : s.config.fullPort p = true) :
    (clearPin p r i s).draws = s.draws := regModify_draws_full p r _ _ s h

/-- The bit of an implemented pin `k` after the step that sets pin `i`. -/
theorem setPin_bit (p : PortId) (r : StoredReg) (i : PinIdx) (s : State) (q : PortId) (r' : StoredReg) (k : Nat)
    (hk : k < 32) (himp : (s.config.implemented p).getLsbD k = true) :
    ((setPin p r i s).stored q r').getLsbD k =
      if q = p ∧ r' = r ∧ k = i.toNat then true else (s.stored q r').getLsbD k := by
  by_cases h : q = p ∧ r' = r
  · obtain ⟨rfl, rfl⟩ := h
    by_cases hki : k = i.toNat
    · subst hki; simp only [setPin_stored, and_self, if_true]; simp [-setPin_stored, maskedUpdate_bit _ _ _ _ hk]
    · simp only [setPin_stored, and_self, if_true]; simp [maskedUpdate_bit _ _ _ k hk, readValue_bit s q r' k himp, hki]
  · have h' : ¬ (q = p ∧ r' = r ∧ k = i.toNat) := fun hh => h ⟨hh.1, hh.2.1⟩
    simp [h, h']

/-- The bit of an implemented pin `k` after the step that clears pin `i`. -/
theorem clearPin_bit (p : PortId) (r : StoredReg) (i : PinIdx) (s : State) (q : PortId) (r' : StoredReg) (k : Nat)
    (hk : k < 32) (himp : (s.config.implemented p).getLsbD k = true) :
    ((clearPin p r i s).stored q r').getLsbD k =
      if q = p ∧ r' = r ∧ k = i.toNat then false else (s.stored q r').getLsbD k := by
  by_cases h : q = p ∧ r' = r
  · obtain ⟨rfl, rfl⟩ := h
    by_cases hki : k = i.toNat
    · subst hki; simp only [clearPin_stored, and_self, if_true]; simp [-clearPin_stored, maskedUpdate_bit _ _ _ _ hk]
    · simp only [clearPin_stored, and_self, if_true]; simp [maskedUpdate_bit _ _ _ k hk, readValue_bit s q r' k himp, hki]
  · have h' : ¬ (q = p ∧ r' = r ∧ k = i.toNat) := fun hh => h ⟨hh.1, hh.2.1⟩
    simp [h, h']

/-! The ends of a command (R80, R160 to R163). -/

theorem onPort_valid {p : PortId} {body : State → State} {s : State} (h : s.config.validPort p = true) :
    onPort p body s = body s := by simp [onPort, h]

theorem onPort_invalid {p : PortId} {body : State → State} {s : State} (h : s.config.validPort p = false) :
    onPort p body s = abortInvalidPort p s := by simp [onPort, h]

theorem onPin_valid {p : PortId} {i : PinIdx} {body : State → State} {s : State}
    (h : s.config.validPort p = true) (hi : s.config.pinImplemented p i = true) : onPin p i body s = body s := by
  simp [onPin, onPort, h, hi]

theorem onPin_invalid {p : PortId} {i : PinIdx} {body : State → State} {s : State}
    (h : s.config.validPort p = false) : onPin p i body s = abortInvalidPort p s := by
  simp [onPin, onPort, h]

theorem onPin_unsupported {p : PortId} {i : PinIdx} {body : State → State} {s : State}
    (h : s.config.validPort p = true) (hi : s.config.pinImplemented p i = false) :
    onPin p i body s = refuse .unsupportedPin s := by
  simp [onPin, onPort, h, hi]

/-- A fully implemented port implements every pin. -/
theorem fullPort_bit {c : Config} {p : PortId} (h : c.fullPort p = true) (k : Nat) (hk : k < 32) :
    (c.implemented p).getLsbD k = true := by
  have h' : c.implemented p = BitVec.allOnes 32 := by simpa [Config.fullPort] using h
  simp only [h', BitVec.getLsbD_allOnes, hk, decide_true]

end Sys2Proof.Laws
end

