-- ==== Sys2Proof/Laws/Pin.lean ====
section
/-! SUPPORT. The commands that change a pin's bits by Modify, said once: each is the fold of its steps (`pinSteps`) over one
masked step, behind the port and pin checks. -/

namespace Sys2Proof.Laws

open Sys2Proof.Machine

/-- One masked step on pin `(p, k)`. -/
def doStep (p : PortId) (k : PinIdx) (s : State) (st : PinStep) : State :=
  if st.2 then setPin p st.1 k s else clearPin p st.1 k s

/-- The steps in order. -/
def doSteps (p : PortId) (k : PinIdx) (steps : List PinStep) (s : State) : State := steps.foldl (doStep p k) s

theorem doSteps_cons (p : PortId) (k : PinIdx) (st : PinStep) (rest : List PinStep) (s : State) :
    doSteps p k (st :: rest) s = doSteps p k rest (doStep p k s st) := rfl

/-- Every command with a list of steps is those steps and pc's advance, behind `CheckPin`. -/
theorem exec_pinSteps {i : Instr} {p : PortId} {k : PinIdx} {steps : List PinStep} (hp : i.port? = some p)
    (hk : i.pin? = some k) (hs : pinSteps i = some steps) (s : State) :
    exec i s = .next (onPin p k (fun s => advance 1 (doSteps p k steps s)) s) := by
  cases i with
  | setState q m l j =>
    cases hp; cases hk
    cases l <;> (cases hs; rfl)
  | read | isHigh | isLow | toggle | isSetHigh | isSetLow | base | regRead | regWrite | regModify | dcfgDefault | dcfg
  | delayNs | delayUs | delayMs => cases hs
  | _ => cases hp; cases hk; cases hs; rfl

/-- A command's steps name a register at most once. -/
theorem pinSteps_nodup {i : Instr} {steps : List PinStep} (h : pinSteps i = some steps) :
    (steps.map fun st => st.1).Nodup := by
  cases i with
  | setState q m l j => cases l <;> (cases h; decide)
  | read | isHigh | isLow | toggle | isSetHigh | isSetLow | base | regRead | regWrite | regModify | dcfgDefault | dcfg
  | delayNs | delayUs | delayMs => cases h
  | _ => cases h; decide

/-- The registers of a command's steps are those it may write. -/
theorem mayWrite_of_step {i : Instr} {steps : List PinStep} (h : pinSteps i = some steps) {st : PinStep}
    (hst : st ∈ steps) : mayWrite i st.1 = true := by
  have hany : (steps.any fun x => x.1 == st.1) = true := List.any_eq_true.mpr ⟨st, hst, by simp⟩
  cases i with
  | read | isHigh | isLow | toggle | isSetHigh | isSetLow | base | regRead | regWrite | regModify | dcfgDefault | dcfg
  | delayNs | delayUs | delayMs => cases h
  | _ => simpa [mayWrite, mayWrite.stepsTouch, h] using hany

@[simp] theorem doStep_config (p : PortId) (k : PinIdx) (s : State) (st : PinStep) :
    (doStep p k s st).config = s.config := by unfold doStep; split <;> simp
@[simp] theorem doSteps_config (p : PortId) (k : PinIdx) (steps : List PinStep) (s : State) :
    (doSteps p k steps s).config = s.config := by
  induction steps generalizing s with
  | nil => rfl
  | cons st rest ih => rw [doSteps_cons, ih, doStep_config]

theorem maskedUpdate_pin (v : Word) (k : PinIdx) :
    maskedUpdate v 0#32 (pinMask k) = pinStepValue v k true ∧ maskedUpdate v (pinMask k) 0#32 = pinStepValue v k false := by
  constructor
  · apply BitVec.eq_of_getLsbD_eq; intro j hj
    rw [maskedUpdate_bit _ _ _ j hj]; simp [pinStepValue, Bool.or_comm]
  · apply BitVec.eq_of_getLsbD_eq; intro j hj
    rw [maskedUpdate_bit _ _ _ j hj]; simp [pinStepValue, hj]

/-- A step changes one bit among the implemented pins of its register. -/
theorem doStep_bit (p : PortId) (k : PinIdx) (s : State) (st : PinStep) (r : StoredReg) (j : Nat) (hj : j < 32)
    (him : (s.config.implemented p).getLsbD j = true) :
    ((doStep p k s st).stored p r).getLsbD j =
      if r = st.1 ∧ j = k.toNat then st.2 else (s.stored p r).getLsbD j := by
  obtain ⟨r', b⟩ := st
  cases b
  · show ((clearPin p r' k s).stored p r).getLsbD j = _
    rw [clearPin_bit p r' k s p r j hj him]; simp
  · show ((setPin p r' k s).stored p r).getLsbD j = _
    rw [setPin_bit p r' k s p r j hj him]; simp

/-- A step leaves every other register as it was. -/
theorem doStep_other (p : PortId) (k : PinIdx) (s : State) (st : PinStep) (q : PortId) (r : StoredReg)
    (h : ¬ (q = p ∧ r = st.1)) : (doStep p k s st).stored q r = s.stored q r := by
  unfold doStep
  split <;> simp <;> grind

/-- On a fully implemented port a step leaves its register at the set or cleared word and draws nothing. -/
theorem doStep_full (p : PortId) (k : PinIdx) (s : State) (st : PinStep) (hf : s.config.fullPort p = true) :
    (doStep p k s st).stored p st.1 = pinStepValue (s.stored p st.1) k st.2 ∧
      (doStep p k s st).samples = s.samples ∧ (doStep p k s st).draws = s.draws := by
  obtain ⟨r, b⟩ := st
  have hm := maskedUpdate_pin (s.stored p r) k
  cases b
  · exact ⟨by simp [doStep, readValue_full _ _ _ hf, hm.2], by simp [doStep, clearPin_samples_full _ _ _ _ hf],
      by simp [doStep, clearPin_draws_full _ _ _ _ hf]⟩
  · exact ⟨by simp [doStep, readValue_full _ _ _ hf, hm.1], by simp [doStep, setPin_samples_full _ _ _ _ hf],
      by simp [doStep, setPin_draws_full _ _ _ _ hf]⟩

end Sys2Proof.Laws
end

