-- ==== Sys2Proof/Laws/Step.lean ====
section
/-! SUPPORT. What a command and a step can do, said once: every command answers a next state; the state is reached by the
block's micro-operations and then pc moves on, or the command aborts, is refused, or faults with nothing done. -/

namespace Sys2Proof.Laws

open Sys2Proof.Machine

/-- A micro-operation of command `i`: a read of a register of its port, which is valid; a write of one of the registers it
may write there; a write of RESULT by a command that returns one; a frequency snapshot; spins. -/
inductive Micro (i : Instr) : State → State → Prop where
  | read (p : PortId) (off : Reg) (s : State) (hp : i.port? = some p) (hv : s.config.validPort p = true)
      (hi : off = .input → readsInput i = true) : Micro i s (regRead p off s).2
  | write (p : PortId) (r : StoredReg) (v : Word) (s : State) (hp : i.port? = some p)
      (hv : s.config.validPort p = true) (hw : mayWrite i r = true) : Micro i s (regWrite p r v s)
  | result (v : Word) (s : State) (hr : returnsResult i = true) : Micro i s (setResult v s)
  | engine (hz : Word) (s : State) (he : i = .dcfgDefault ∨ i = .dcfg hz) : Micro i s { s with freq := some hz }
  | spins (n : Nat) (c : Count) (s : State) (hd : isDelay i = true) : Micro i s (spinTimes n c s)

/-- Some micro-operations of a command, in order. -/
abbrev Micros (i : Instr) : State → State → Prop := Relation.ReflTransGen (Micro i)

/-- Micro-operations never change the platform, the stream, pc or STATUS. -/
theorem Micros.fixed {i : Instr} {s t : State} (h : Micros i s t) :
    t.config = s.config ∧ t.stream = s.stream ∧ t.pc = s.pc ∧ t.status = s.status := by
  induction h with
  | refl => simp
  | tail _ hm ih => cases hm <;> simpa using ih

/-- A property every micro-operation keeps holds after any of them. -/
theorem Micros.keep {i : Instr} {P : State → Prop} (hP : ∀ s t, Micro i s t → P s → P t) {s t : State}
    (h : Micros i s t) (hs : P s) : P t := by
  induction h with
  | refl => exact hs
  | tail _ hm ih => exact hP _ _ hm ih

theorem Micros.one {i : Instr} {s t : State} (h : Micro i s t) : Micros i s t := Relation.ReflTransGen.single h

theorem micros_regModify {i : Instr} (p : PortId) (r : StoredReg) (clr set : Word) (s : State) (hp : i.port? = some p)
    (hv : s.config.validPort p = true) (hw : mayWrite i r = true) : Micros i s (regModify p r clr set s) :=
  (Micros.one (.read p (.stored r) s hp hv nofun)).trans (Micros.one (.write p r _ _ hp (by simpa using hv) hw))

theorem micros_doSteps {i : Instr} (p : PortId) (k : PinIdx) (steps : List PinStep) (s : State) (hp : i.port? = some p)
    (hv : s.config.validPort p = true) (hw : ∀ st ∈ steps, mayWrite i st.1 = true) :
    Micros i s (doSteps p k steps s) := by
  induction steps generalizing s with
  | nil => exact .refl
  | cons st rest ih =>
    have hst := hw st (by simp)
    have hrest := ih (doStep p k s st) (by simpa using hv) fun x hx => hw x (by simp [hx])
    refine Relation.ReflTransGen.trans ?_ hrest
    unfold doStep
    split
    · exact micros_regModify p _ _ _ s hp hv hst
    · exact micros_regModify p _ _ _ s hp hv hst

theorem spin_eq_spinTimes (c : Count) (s : State) : spin c s = spinTimes 1 c s := by simp [spin, spinTimes]

/-- The end of a command `i` from `s` at `t`. -/
inductive Ends (i : Instr) (s : State) : State → Prop where
  | completes (u : State) (h : Micros i s u) : Ends i s (advance i.opcode.len u)
  | aborts (p : PortId) (hp : i.port? = some p) (hv : s.config.validPort p = false) : Ends i s (abortInvalidPort p s)
  | unsupported (p : PortId) (k : PinIdx) (hp : i.port? = some p) (hk : i.pin? = some k)
      (hv : s.config.validPort p = true) (hi : s.config.pinImplemented p k = false) : Ends i s (refuse .unsupportedPin s)
  | unconfigured (hp : i.port? = none) (hf : s.freq = none) : Ends i s (faultDelayUnconfigured s)

theorem ends_onPort {i : Instr} {p : PortId} {body : State → State} {s : State} (hp : i.port? = some p)
    (hb : s.config.validPort p = true → Ends i s (body s)) : Ends i s (onPort p body s) := by
  by_cases hv : s.config.validPort p = true
  · rw [onPort_valid hv]; exact hb hv
  · have hv' : s.config.validPort p = false := by simpa using hv
    rw [onPort_invalid hv']; exact .aborts p hp hv'

theorem ends_onPin {i : Instr} {p : PortId} {k : PinIdx} {body : State → State} {s : State} (hp : i.port? = some p)
    (hk : i.pin? = some k) (hb : s.config.validPort p = true → Ends i s (body s)) : Ends i s (onPin p k body s) := by
  refine ends_onPort hp fun hv => ?_
  by_cases hi : s.config.pinImplemented p k = true
  · simp only [hi, if_true]; exact hb hv
  · have hi' : s.config.pinImplemented p k = false := by simpa using hi
    simp only [hi']; exact .unsupported p k hp hk hv hi'

theorem ends_withEngine {i : Instr} {body : Word → State → State} {s : State} (hp : i.port? = none)
    (hb : ∀ f, Ends i s (body f s)) : Ends i s (withEngine body s) := by
  unfold withEngine
  split
  · exact hb _
  · rename_i hf; exact .unconfigured hp hf

/-- The commands with a list of steps. -/
theorem ends_pinSteps {i : Instr} {p : PortId} {k : PinIdx} {steps : List PinStep} (hp : i.port? = some p)
    (hk : i.pin? = some k) (hs : pinSteps i = some steps) (hl : i.opcode.len = 1) (s : State) :
    ∃ t, exec i s = .next t ∧ Ends i s t :=
  ⟨_, exec_pinSteps hp hk hs s, ends_onPin hp hk fun hv => hl ▸ .completes _
    (micros_doSteps p k steps s hp hv fun _ hst => mayWrite_of_step hs hst)⟩

theorem ends_testPin {i : Instr} (p : PortId) (off : Reg) (k : PinIdx) (test : Level → Bool) (s : State)
    (hp : i.port? = some p) (hk : i.pin? = some k) (hl : i.opcode.len = 1) (hr : returnsResult i = true)
    (hi : off = .input → readsInput i = true) : Ends i s (testPin p off k test s) :=
  ends_onPin hp hk fun hv => hl ▸ .completes _
    ((Micros.one (.read p off s hp hv hi)).trans (Micros.one (.result _ _ hr)))

/-- Every command answers a next state, and that state is one of the ends above. -/
theorem exec_ends (i : Instr) (s : State) : ∃ t, exec i s = .next t ∧ Ends i s t := by
  cases i with
  | setState p m l k => cases l <;> exact ends_pinSteps rfl rfl rfl rfl s
  | read p m k => exact ⟨_, rfl, ends_testPin p _ k _ s rfl rfl rfl rfl fun _ => rfl⟩
  | isHigh p m k => exact ⟨_, rfl, ends_testPin p _ k _ s rfl rfl rfl rfl fun _ => rfl⟩
  | isLow p m k => exact ⟨_, rfl, ends_testPin p _ k _ s rfl rfl rfl rfl fun _ => rfl⟩
  | toggle p k =>
    exact ⟨_, rfl, ends_onPin rfl rfl fun hv => .completes _
      ((Micros.one (.read p (.stored .out) s rfl hv nofun)).trans
        (Micros.one (.write p .out _ _ rfl (by simpa using hv) rfl)))⟩
  | isSetHigh p k => exact ⟨_, rfl, ends_testPin p _ k _ s rfl rfl rfl rfl nofun⟩
  | isSetLow p k => exact ⟨_, rfl, ends_testPin p _ k _ s rfl rfl rfl rfl nofun⟩
  | base p => exact ⟨_, rfl, ends_onPort rfl fun _ => .completes _ (Micros.one (.result _ s rfl))⟩
  | regRead p off =>
    exact ⟨_, rfl, ends_onPort rfl fun hv => .completes _
      ((Micros.one (.read p off s rfl hv fun h => by simp [readsInput, h])).trans (Micros.one (.result _ _ rfl)))⟩
  | regWrite p r v =>
    exact ⟨_, rfl, ends_onPort rfl fun hv => .completes _ (Micros.one (.write p r v s rfl hv (by simp [mayWrite])))⟩
  | regModify p r clr set =>
    exact ⟨_, rfl, ends_onPort rfl fun hv => .completes _
      (micros_regModify p r clr set s rfl hv (by simp [mayWrite]))⟩
  | dcfgDefault => exact ⟨_, rfl, .completes _ (Micros.one (.engine _ s (.inl rfl)))⟩
  | dcfg hz => exact ⟨_, rfl, .completes _ (Micros.one (.engine hz s (.inr rfl)))⟩
  | delayNs n =>
    exact ⟨_, rfl, ends_withEngine rfl fun f => .completes _ (spin_eq_spinTimes _ s ▸ Micros.one (.spins 1 _ s rfl))⟩
  | delayUs n =>
    exact ⟨_, rfl, ends_withEngine rfl fun f => .completes _ (spin_eq_spinTimes _ s ▸ Micros.one (.spins 1 _ s rfl))⟩
  | delayMs n => exact ⟨_, rfl, ends_withEngine rfl fun f => .completes _ (Micros.one (.spins _ _ s rfl))⟩
  | _ => exact ends_pinSteps rfl rfl rfl rfl s

/-- If a command answers a next state, it is one of the ends above. -/
theorem exec_next {i : Instr} {s t : State} (h : exec i s = .next t) : Ends i s t := by
  obtain ⟨t', ht, he⟩ := exec_ends i s
  rw [ht] at h
  cases h
  exact he

/-- A step that answers a next state ran from STATUS `Run` inside the stream, and either refused what stands at pc or
ran the command decoded there. -/
theorem step_next {s t : State} (h : step s = .next t) :
    s.status = .run ∧ s.pc < s.stream.length ∧
      ((∃ why, decode (s.stream.drop s.pc) = .error why ∧ t = refuse why s) ∨
        ∃ i, decode (s.stream.drop s.pc) = .ok i ∧ Ends i s t) := by
  unfold step at h
  split at h
  · cases h
  rename_i hrun
  split at h
  · cases h
  rename_i hend
  split at h
  · cases h
  rename_i hout
  refine ⟨by simpa using hrun, by omega, ?_⟩
  split at h
  · rename_i i hd; exact .inr ⟨i, hd, exec_next h⟩
  · rename_i why hd
    exact .inl ⟨why, hd, by simpa [done] using h.symm⟩

end Sys2Proof.Laws
end

