-- ==== Sys2Proof/Laws/Delay.lean ====
section
/-! SUPPORT. The arithmetic of the delay counter: the clamp, and that no cycle count loses a bit. -/

namespace Sys2Proof.Laws

open Sys2Proof.Machine

/-- `Clamp(c) = max(c, 1)` (R143). -/
theorem clampCount_toNat (c : Count) : (clampCount c).toNat = max 1 c.toNat := by
  unfold clampCount
  split
  · simp_all
  · rename_i h
    have : c.toNat ≠ 0 := fun e => h (BitVec.eq_of_toNat_eq (by simpa using e))
    omega

/-- The product of two words fits 64 bits (R142). -/
theorem product_lt (n f : Word) : n.toNat * f.toNat < 2 ^ 64 := by
  have h : n.toNat * f.toNat ≤ (2 ^ 32 - 1) * (2 ^ 32 - 1) := Nat.mul_le_mul (by omega) (by omega)
  omega

/-- The 64-bit product is the exact one. -/
theorem product_toNat (n f : Word) : (n.setWidth 64 * f.setWidth 64).toNat = n.toNat * f.toNat := by
  simpa using product_lt n f

end Sys2Proof.Laws
end

