-- ==== Sys2Proof/Laws/PerInstr.lean ====
section
/-! SUPPORT. One lemma for each command: its encoding has the length and the code its opcode has in R64, and zero in the
fields R64 lists as must-be-zero. -/

namespace Sys2Proof.Laws.Encodes

/-- A command's words are as many as R64 gives its opcode, the first one's OP field is its code, and its must-be-zero
fields are zero (R61, R64, R66). -/
def Statement (i : Instr) : Prop :=
  ∃ w0 rest, encode i = w0 :: rest ∧ rest.length + 1 = i.opcode.len ∧ fieldOp w0 = i.opcode.code ∧
    w0 &&& i.opcode.mustBeZero = 0

/-- The first word of a pin command whose mode and level fields are free where its opcode leaves them free. -/
theorem pinWord_ok (o : Opcode) (port : PortId) (mode : Mode) (lv : Level) (pin : PinIdx)
    (h : o.mustBeZero = 0x0000FFE0 ∧ mode = .input ∧ lv = .low ∨ o.mustBeZero = 0x0000FF20 ∧ lv = .low ∨
      o.mustBeZero = 0x0000FF00) :
    fieldOp (pinWord o port mode lv pin) = o.code ∧ pinWord o port mode lv pin &&& o.mustBeZero = 0 := by
  refine ⟨fieldOp_pack .., ?_⟩
  rcases h with ⟨h, rfl, rfl⟩ | ⟨h, rfl⟩ | h <;> rw [h, pinWord]
  · exact (pack_and_FFE0 ..).mpr ⟨rfl, rfl, rfl⟩
  · exact (pack_and_FF20 ..).mpr ⟨rfl, rfl⟩
  · exact (pack_and_FF00 ..).mpr rfl

/-- The first word of a register command. -/
theorem regWord_ok (o : Opcode) (port : PortId) (off : BitVec 8)
    (h : o.mustBeZero = 0x000000FF ∨ o.mustBeZero = 0x0000FFFF ∧ off = 0) :
    fieldOp (regWord o port off) = o.code ∧ regWord o port off &&& o.mustBeZero = 0 := by
  refine ⟨fieldOp_pack .., ?_⟩
  rcases h with h | ⟨h, rfl⟩ <;> rw [h, regWord]
  · exact (pack_and_00FF ..).mpr ⟨rfl, rfl, rfl⟩
  · exact (pack_and_FFFF ..).mpr ⟨rfl, rfl, rfl, rfl⟩

/-- The first word of a delay command. -/
theorem delayWord_ok (o : Opcode) (h : o.mustBeZero = 0x00FFFFFF) :
    fieldOp (delayWord o) = o.code ∧ delayWord o &&& o.mustBeZero = 0 := by
  refine ⟨fieldOp_pack .., ?_⟩
  rw [h, delayWord]
  exact (pack_and_FFFFFF ..).mpr ⟨rfl, rfl, rfl, rfl, rfl⟩

theorem mkInput (port : PortId) (pin : PinIdx) : Statement (.mkInput port pin) :=
  ⟨_, _, rfl, rfl, pinWord_ok _ _ _ _ _ (.inl ⟨rfl, rfl, rfl⟩)⟩

theorem mkInputPu (port : PortId) (pin : PinIdx) : Statement (.mkInputPu port pin) :=
  ⟨_, _, rfl, rfl, pinWord_ok _ _ _ _ _ (.inl ⟨rfl, rfl, rfl⟩)⟩

theorem mkOutput (port : PortId) (pin : PinIdx) : Statement (.mkOutput port pin) :=
  ⟨_, _, rfl, rfl, pinWord_ok _ _ _ _ _ (.inl ⟨rfl, rfl, rfl⟩)⟩

theorem mkOutputOd (port : PortId) (pin : PinIdx) : Statement (.mkOutputOd port pin) :=
  ⟨_, _, rfl, rfl, pinWord_ok _ _ _ _ _ (.inl ⟨rfl, rfl, rfl⟩)⟩

theorem intoInputFromIpu (port : PortId) (pin : PinIdx) : Statement (.intoInputFromIpu port pin) :=
  ⟨_, _, rfl, rfl, pinWord_ok _ _ _ _ _ (.inr (.inl ⟨rfl, rfl⟩))⟩

theorem intoInputFromOut (port : PortId) (pin : PinIdx) : Statement (.intoInputFromOut port pin) :=
  ⟨_, _, rfl, rfl, pinWord_ok _ _ _ _ _ (.inr (.inl ⟨rfl, rfl⟩))⟩

theorem intoInputFromOod (port : PortId) (pin : PinIdx) : Statement (.intoInputFromOod port pin) :=
  ⟨_, _, rfl, rfl, pinWord_ok _ _ _ _ _ (.inr (.inl ⟨rfl, rfl⟩))⟩

theorem intoInputPuFromIn (port : PortId) (pin : PinIdx) : Statement (.intoInputPuFromIn port pin) :=
  ⟨_, _, rfl, rfl, pinWord_ok _ _ _ _ _ (.inr (.inl ⟨rfl, rfl⟩))⟩

theorem intoInputPuFromOut (port : PortId) (pin : PinIdx) : Statement (.intoInputPuFromOut port pin) :=
  ⟨_, _, rfl, rfl, pinWord_ok _ _ _ _ _ (.inr (.inl ⟨rfl, rfl⟩))⟩

theorem intoInputPuFromOod (port : PortId) (pin : PinIdx) : Statement (.intoInputPuFromOod port pin) :=
  ⟨_, _, rfl, rfl, pinWord_ok _ _ _ _ _ (.inr (.inl ⟨rfl, rfl⟩))⟩

theorem intoOutputFromIn (port : PortId) (pin : PinIdx) : Statement (.intoOutputFromIn port pin) :=
  ⟨_, _, rfl, rfl, pinWord_ok _ _ _ _ _ (.inr (.inl ⟨rfl, rfl⟩))⟩

theorem intoOutputFromIpu (port : PortId) (pin : PinIdx) : Statement (.intoOutputFromIpu port pin) :=
  ⟨_, _, rfl, rfl, pinWord_ok _ _ _ _ _ (.inr (.inl ⟨rfl, rfl⟩))⟩

theorem intoOutputFromOod (port : PortId) (pin : PinIdx) : Statement (.intoOutputFromOod port pin) :=
  ⟨_, _, rfl, rfl, pinWord_ok _ _ _ _ _ (.inr (.inl ⟨rfl, rfl⟩))⟩

theorem intoOutputOdFromIn (port : PortId) (pin : PinIdx) : Statement (.intoOutputOdFromIn port pin) :=
  ⟨_, _, rfl, rfl, pinWord_ok _ _ _ _ _ (.inr (.inl ⟨rfl, rfl⟩))⟩

theorem intoOutputOdFromIpu (port : PortId) (pin : PinIdx) : Statement (.intoOutputOdFromIpu port pin) :=
  ⟨_, _, rfl, rfl, pinWord_ok _ _ _ _ _ (.inr (.inl ⟨rfl, rfl⟩))⟩

theorem intoOutputOdFromOut (port : PortId) (pin : PinIdx) : Statement (.intoOutputOdFromOut port pin) :=
  ⟨_, _, rfl, rfl, pinWord_ok _ _ _ _ _ (.inr (.inl ⟨rfl, rfl⟩))⟩

theorem read (port : PortId) (mode : Mode) (pin : PinIdx) : Statement (.read port mode pin) :=
  ⟨_, _, rfl, rfl, pinWord_ok _ _ _ _ _ (.inr (.inl ⟨rfl, rfl⟩))⟩

theorem isHigh (port : PortId) (mode : Mode) (pin : PinIdx) : Statement (.isHigh port mode pin) :=
  ⟨_, _, rfl, rfl, pinWord_ok _ _ _ _ _ (.inr (.inl ⟨rfl, rfl⟩))⟩

theorem isLow (port : PortId) (mode : Mode) (pin : PinIdx) : Statement (.isLow port mode pin) :=
  ⟨_, _, rfl, rfl, pinWord_ok _ _ _ _ _ (.inr (.inl ⟨rfl, rfl⟩))⟩

theorem setHigh (port : PortId) (mode : Mode) (pin : PinIdx) : Statement (.setHigh port mode pin) :=
  ⟨_, _, rfl, rfl, pinWord_ok _ _ _ _ _ (.inr (.inl ⟨rfl, rfl⟩))⟩

theorem setLow (port : PortId) (mode : Mode) (pin : PinIdx) : Statement (.setLow port mode pin) :=
  ⟨_, _, rfl, rfl, pinWord_ok _ _ _ _ _ (.inr (.inl ⟨rfl, rfl⟩))⟩

theorem setState (port : PortId) (mode : Mode) (level : Level) (pin : PinIdx) : Statement (.setState port mode level pin) :=
  ⟨_, _, rfl, rfl, pinWord_ok _ _ _ _ _ (.inr (.inr rfl))⟩

theorem toggle (port : PortId) (pin : PinIdx) : Statement (.toggle port pin) :=
  ⟨_, _, rfl, rfl, pinWord_ok _ _ _ _ _ (.inr (.inl ⟨rfl, rfl⟩))⟩

theorem isSetHigh (port : PortId) (pin : PinIdx) : Statement (.isSetHigh port pin) :=
  ⟨_, _, rfl, rfl, pinWord_ok _ _ _ _ _ (.inr (.inl ⟨rfl, rfl⟩))⟩

theorem isSetLow (port : PortId) (pin : PinIdx) : Statement (.isSetLow port pin) :=
  ⟨_, _, rfl, rfl, pinWord_ok _ _ _ _ _ (.inr (.inl ⟨rfl, rfl⟩))⟩

theorem base (port : PortId) : Statement (.base port) :=
  ⟨_, _, rfl, rfl, regWord_ok _ _ _ (.inr ⟨rfl, rfl⟩)⟩

theorem regRead (port : PortId) (off : Reg) : Statement (.regRead port off) :=
  ⟨_, _, rfl, rfl, regWord_ok _ _ _ (.inl rfl)⟩

theorem regWrite (port : PortId) (soff : StoredReg) (value : Word) : Statement (.regWrite port soff value) :=
  ⟨_, _, rfl, rfl, regWord_ok _ _ _ (.inl rfl)⟩

theorem regModify (port : PortId) (soff : StoredReg) (clr : Word) (set : Word) : Statement (.regModify port soff clr set) :=
  ⟨_, _, rfl, rfl, regWord_ok _ _ _ (.inl rfl)⟩

theorem dcfgDefault : Statement .dcfgDefault :=
  ⟨_, _, rfl, rfl, delayWord_ok _ rfl⟩

theorem dcfg (n : Word) : Statement (.dcfg n) :=
  ⟨_, _, rfl, rfl, delayWord_ok _ rfl⟩

theorem delayNs (n : Word) : Statement (.delayNs n) :=
  ⟨_, _, rfl, rfl, delayWord_ok _ rfl⟩

theorem delayUs (n : Word) : Statement (.delayUs n) :=
  ⟨_, _, rfl, rfl, delayWord_ok _ rfl⟩

theorem delayMs (n : Word) : Statement (.delayMs n) :=
  ⟨_, _, rfl, rfl, delayWord_ok _ rfl⟩

end Sys2Proof.Laws.Encodes
end

