-- ==== Sys2Proof/Tests/Slice0.lean ====
section
/-! SUPPORT. Tests of one step each, with words and results from the spec's own examples and from 95_test_vectors.md, and
a witness for the hypotheses of every obligation that has some. -/

namespace Sys2Proof.Tests

open Sys2Proof Sys2Proof.Machine

/-! Helpers. -/

/-- The test configuration of 95_test_vectors.md section 0, with port 0's registers as given and the rest 0. -/
def port0 (dir out od pu : Word) : State := { State.reset with regs := [(0, ⟨dir, out, od, pu⟩)] }

/-- The state with a command at pc 0. -/
def holding (ws : List Word) (s : State) : State := { s with stream := ws }

/-- One step with the words at pc 0. -/
def stepOn (ws : List Word) (s : State) : Option State := nextState? (step (holding ws s))

/-- DIR, OUT, OD, PU of port 0. -/
def quad (s : State) : Word × Word × Word × Word := (s.stored 0 .dir, s.stored 0 .out, s.stored 0 .od, s.stored 0 .pu)

/-- Every one of the streams is refused for this reason. -/
def allRefused (why : RefusalReason) (streams : List (List Word)) : Bool :=
  streams.all fun ws => match decode ws with
    | .error e => e == why
    | .ok _ => false

/-- RESULT and OUT of port 0. -/
def resultOut (s : State) : Option Word × Word := (s.result, s.stored 0 .out)

/-- The start state of 95_test_vectors.md section L2.1. -/
def l21 : State := { port0 0x20 0x05 0xAA 0 with samples := [0x1234ABCD] }

/-- A platform on which port 0 lacks pin 31 (R26, D29). -/
def narrowed : State :=
  { State.reset with
    config :=
      { ports := [{ id := 0, base := 0x10000000, implemented := 0x7FFFFFFF
                    resetDir := 0, resetOut := 0, resetOd := 0, resetPu := 0 }]
        defaultFreq := 48000000 } }

/-- Every port the test configuration has is fully implemented. -/
theorem reference_fullPort (p : PortId) (h : Config.reference.validPort p = true) :
    Config.reference.fullPort p = true := by
  by_cases h0 : p = 0
  · subst h0; decide
  · by_cases h1 : p = 1
    · subst h1; decide
    · have hnone : Config.reference.portConfig p = none := by
        show List.find? (fun q : PortConfig => q.id == p) Config.reference.ports = none
        rw [List.find?_eq_none]
        simp only [Config.reference, List.mem_cons, List.not_mem_nil, or_false]
        rintro q (rfl | rfl)
        · simpa using Ne.symm h0
        · simpa using Ne.symm h1
      rw [Config.validPort, hnone] at h
      cases h

/-- Every pin of a port the test configuration has is implemented. -/
theorem reference_full (p : PortId) (k : PinIdx) (h : Config.reference.validPort p = true) :
    Config.reference.pinImplemented p k = true :=
  Laws.fullPort_bit (reference_fullPort p h) _ k.isLt

/-! WellFormed: the typestate refuses the wrong modes (R64, R67). -/

theorem test_wf_read_output : (Instr.read 0 .output 3).wf = false := by decide
theorem test_wf_is_high_open_drain : (Instr.isHigh 0 .outputOpenDrain 3).wf = false := by decide
theorem test_wf_is_low_output : (Instr.isLow 0 .output 3).wf = false := by decide
theorem test_wf_set_high_input : (Instr.setHigh 0 .input 3).wf = false := by decide
theorem test_wf_set_low_pull_up : (Instr.setLow 0 .inputPullUp 3).wf = false := by decide
theorem test_wf_set_state_input : (Instr.setState 0 .input .high 3).wf = false := by decide
theorem test_wf_accepts : (Instr.read 0xFF .inputPullUp 31).wf = true ∧ (Instr.setState 0 .outputOpenDrain .low 0).wf = true := by
  decide

/-! Decoding: a word of every constructor, written out from R61 to R64. -/

theorem test_decode_constructors :
    decode [0x0100001F] = .ok (.mkInput 0 31) ∧ decode [0x02010005] = .ok (.mkInputPu 1 5) ∧
    decode [0x0300000D] = .ok (.mkOutput 0 13) ∧ decode [0x04000007] = .ok (.mkOutputOd 0 7) := by decide

theorem test_decode_into_input :
    decode [0x05000044] = .ok (.intoInputFromIpu 0 4) ∧ decode [0x05000084] = .ok (.intoInputFromOut 0 4) ∧
    decode [0x050100C5] = .ok (.intoInputFromOod 1 5) := by decide

theorem test_decode_into_input_pu :
    decode [0x06000004] = .ok (.intoInputPuFromIn 0 4) ∧ decode [0x06000084] = .ok (.intoInputPuFromOut 0 4) ∧
    decode [0x060000C4] = .ok (.intoInputPuFromOod 0 4) := by decide

theorem test_decode_into_output :
    decode [0x07000004] = .ok (.intoOutputFromIn 0 4) ∧ decode [0x07010045] = .ok (.intoOutputFromIpu 1 5) ∧
    decode [0x070000C4] = .ok (.intoOutputFromOod 0 4) := by decide

theorem test_decode_into_output_od :
    decode [0x08000004] = .ok (.intoOutputOdFromIn 0 4) ∧ decode [0x08000044] = .ok (.intoOutputOdFromIpu 0 4) ∧
    decode [0x08010085] = .ok (.intoOutputOdFromOut 1 5) := by decide

theorem test_decode_pin_input :
    decode [0x10010045] = .ok (.read 1 .inputPullUp 5) ∧ decode [0x11000043] = .ok (.isHigh 0 .inputPullUp 3) ∧
    decode [0x12010005] = .ok (.isLow 1 .input 5) := by decide

theorem test_decode_pin_output :
    decode [0x180000C3] = .ok (.setHigh 0 .outputOpenDrain 3) ∧ decode [0x19000083] = .ok (.setLow 0 .output 3) ∧
    decode [0x1A0000BF] = .ok (.setState 0 .output .high 31) ∧
    decode [0x1A0000DF] = .ok (.setState 0 .outputOpenDrain .low 31) ∧
    decode [0x1B00008D] = .ok (.toggle 0 13) ∧ decode [0x1C000085] = .ok (.isSetHigh 0 5) ∧
    decode [0x1D000085] = .ok (.isSetLow 0 5) := by decide

theorem test_decode_registers :
    decode [0x20010000] = .ok (.base 1) ∧ decode [0x21000400] = .ok (.regRead 0 (.stored .out)) ∧
    decode [0x22001000, 0xFFFF0000] = .ok (.regWrite 0 .pu 0xFFFF0000) ∧
    decode [0x23000C00, 0x000000F0, 0x0000000F] = .ok (.regModify 0 .od 0xF0 0x0F) := by decide

theorem test_decode_delay :
    decode [0x30000000] = .ok .dcfgDefault ∧ decode [0x31000000, 0x00008000] = .ok (.dcfg 32768) ∧
    decode [0x32000000, 0x000003E8] = .ok (.delayNs 1000) ∧ decode [0x33000000, 0x0000001F] = .ok (.delayUs 31) ∧
    decode [0x34000000, 0x00000002] = .ok (.delayMs 2) := by decide

/-- The refusals of 95_test_vectors.md section L2.6, and a last word that names two reasons. -/
theorem test_decode_refusals :
    decode [0x00000000] = .error .illegalOpcode ∧ decode [0xFF000000] = .error .illegalOpcode ∧
    decode [0x32000000] = .error .truncated ∧ decode [0x23000000, 0] = .error .truncated ∧
    decode [0x01000100] = .error .reservedFieldNonzero ∧ decode [0x01000040] = .error .reservedFieldNonzero ∧
    decode [0x30000001] = .error .reservedFieldNonzero ∧ decode [0x10000020] = .error .reservedFieldNonzero ∧
    decode [0x21001400] = .error .illegalOffset ∧ decode [0x22000800, 1] = .error .illegalOffset ∧
    decode [0x1BFF00C0] = .error .modeNotPermitted ∧ decode [0x01FF1000] = .error .reservedFieldNonzero := by decide

theorem test_decode_table_word :
    decodeTableWord 32 0x1A0000BF = some (.setState 0 .output .high 31) ∧
    decodeTableWord 96 0x0000000F000000F023000C00 = some (.regModify 0 .od 0xF0 0x0F) ∧
    decodeTableWord 32 0x0500000F = none := by decide

/-- The first step after reset runs the word placed (log 4). -/
theorem test_fetch_word :
    (nextState? (step (State.reset.withFetchWord 96 0x0000000F000000F023000C00))).map (fun t => (t.pc, quad t)) =
      some (3, 0, 0, 0x0F, 0) := by decide

/-! Register access (95_test_vectors.md section L2.1). -/

theorem test_base : (stepOn [0x20010000] l21).map (fun t => (t.result, t.events)) =
    some (some 0x10000100, [.res 0x10000100]) := by decide

theorem test_reg_read : (stepOn [0x21000400] l21).map (fun t => (t.result, t.events)) =
    some (some 0x5, [.rd 0 (.stored .out) 0x5, .res 0x5]) := by decide

theorem test_reg_read_input : (stepOn [0x21000800] l21).map (fun t => (t.result, quad t, t.samples)) =
    some (some 0x1234ABCD, (0x20, 0x05, 0xAA, 0), []) := by decide

theorem test_reg_write : (stepOn [0x22001000, 0xFFFF0000] l21).map (fun t => (quad t, t.pc)) =
    some ((0x20, 0x05, 0xAA, 0xFFFF0000), 2) := by decide

theorem test_reg_modify : (stepOn [0x23000C00, 0xF0, 0x0F] l21).map (fun t => (quad t, t.pc)) =
    some ((0x20, 0x05, 0x0F, 0), 3) := by decide

/-- The set mask wins where the masks overlap; a modify of nothing still reads and writes. -/
theorem test_reg_modify_events :
    (stepOn [0x23000000, 0x20, 0x20] l21).map quad = some (0x20, 0x05, 0xAA, 0) ∧
    (stepOn [0x23000000, 0, 0] l21).map (fun t => t.events) = some [.rd 0 (.stored .dir) 0x20, .wr 0 .dir 0x20] := by
  decide

/-! Pin constructors (section L2.2). -/

theorem test_mk_input : (stepOn [0x0100001F] (port0 0xFFFFFFFF 0 0 0)).map (fun t => (quad t, t.events)) =
    some ((0x7FFFFFFF, 0, 0, 0), [.rd 0 (.stored .dir) 0xFFFFFFFF, .wr 0 .dir 0x7FFFFFFF]) := by decide

theorem test_mk_input_pu : (stepOn [0x02000000] (port0 1 0 0 0)).map (fun t => (quad t, t.events)) =
    some ((0, 0, 0, 1),
      [.rd 0 (.stored .dir) 1, .wr 0 .dir 0, .rd 0 (.stored .pu) 0, .wr 0 .pu 1]) := by decide

theorem test_mk_output : (stepOn [0x03000007] (port0 0x80 0 0x80 0x80)).map quad = some (0x80, 0, 0x80, 0x80) := by decide

theorem test_mk_output_od : (stepOn [0x0400001F] (port0 0xFFFFFFFF 0 0 0)).map quad =
    some (0xFFFFFFFF, 0, 0x80000000, 0) := by decide

/-! Pin transitions (section L2.3): pin 4, with other pins' bits set. -/

theorem test_into_input_from_ipu : (stepOn [0x05000044] (port0 0x1 0 0x100 0x10010)).map quad =
    some (0x1, 0, 0x100, 0x10000) := by decide

theorem test_into_input_from_out : (stepOn [0x05000084] (port0 0x11 0 0x100 0x10000)).map quad =
    some (0x1, 0, 0x100, 0x10000) := by decide

theorem test_into_input_from_ood : (stepOn [0x050000C4] (port0 0x11 0 0x110 0x10000)).map quad =
    some (0x1, 0, 0x100, 0x10000) := by decide

theorem test_into_input_pu_from_in : (stepOn [0x06000004] (port0 0x1 0 0x100 0x10000)).map quad =
    some (0x1, 0, 0x100, 0x10010) := by decide

theorem test_into_input_pu_from_out : (stepOn [0x06000084] (port0 0x11 0 0x100 0x10000)).map quad =
    some (0x1, 0, 0x100, 0x10010) := by decide

theorem test_into_input_pu_from_ood : (stepOn [0x060000C4] (port0 0x11 0 0x110 0x10000)).map (fun t => t.events) =
    some [.rd 0 (.stored .od) 0x110, .wr 0 .od 0x100, .rd 0 (.stored .dir) 0x11, .wr 0 .dir 0x1,
      .rd 0 (.stored .pu) 0x10000, .wr 0 .pu 0x10010] := by decide

theorem test_into_output_from_in : (stepOn [0x07000004] (port0 0x1 0 0x100 0x10000)).map quad =
    some (0x11, 0, 0x100, 0x10000) := by decide

theorem test_into_output_from_ipu : (stepOn [0x07000043] (port0 0 0 0 0x28)).map (fun t => t.events) =
    some [.rd 0 (.stored .pu) 0x28, .wr 0 .pu 0x20, .rd 0 (.stored .dir) 0, .wr 0 .dir 0x8] := by decide

theorem test_into_output_from_ood : (stepOn [0x070000C4] (port0 0x11 0 0x110 0x10000)).map quad =
    some (0x11, 0, 0x100, 0x10000) := by decide

theorem test_into_output_od_from_in : (stepOn [0x08000004] (port0 0x1 0 0x100 0x10000)).map quad =
    some (0x11, 0, 0x110, 0x10000) := by decide

theorem test_into_output_od_from_ipu : (stepOn [0x08000044] (port0 0x1 0 0x100 0x10010)).map (fun t => t.events) =
    some [.rd 0 (.stored .pu) 0x10010, .wr 0 .pu 0x10000, .rd 0 (.stored .dir) 0x1, .wr 0 .dir 0x11,
      .rd 0 (.stored .od) 0x100, .wr 0 .od 0x110] := by decide

theorem test_into_output_od_from_out : (stepOn [0x08000084] (port0 0x11 0 0x100 0x10000)).map quad =
    some (0x11, 0, 0x110, 0x10000) := by decide

/-! Pin input and output (section L2.4). -/

theorem test_read : (stepOn [0x10000003] { port0 0 0 0 0 with samples := [0x8] }).map resultOut = some (some 1, 0) ∧
    (stepOn [0x10000043] { port0 0 0 0 0 with samples := [0xFFFFFFF7] }).map resultOut = some (some 0, 0) := by decide

theorem test_is_high : (stepOn [0x11000043] { port0 0 0 0 0 with samples := [0x8] }).map resultOut = some (some 1, 0) := by
  decide

theorem test_is_low : (stepOn [0x12000003] { port0 0 0 0 0 with samples := [0x8] }).map resultOut = some (some 0, 0) ∧
    (stepOn [0x12000003] { port0 0 0 0 0 with samples := [0] }).map resultOut = some (some 1, 0) := by decide

theorem test_set_high : (stepOn [0x18000083] (port0 0 1 0 0)).map resultOut = some (none, 0x9) := by decide

theorem test_set_low : (stepOn [0x19000083] (port0 0 0xFFFFFFFF 0 0)).map resultOut = some (none, 0xFFFFFFF7) := by decide

theorem test_set_state : (stepOn [0x1A0000BF] (port0 0 0 0 0)).map resultOut = some (none, 0x80000000) ∧
    (stepOn [0x1A0000DF] (port0 0 0x80000001 0 0)).map resultOut = some (none, 0x1) := by decide

theorem test_toggle : (stepOn [0x1B000080] (port0 0 0 0 0)).map resultOut = some (none, 1) ∧
    (stepOn [0x1B000080] (port0 0 1 0 0)).map resultOut = some (none, 0) := by decide

theorem test_is_set_high : (stepOn [0x1C000085] (port0 0 0x20 0 0)).map resultOut = some (some 1, 0x20) ∧
    (stepOn [0x1C000085] (port0 0 0xFFFFFFDF 0 0)).map resultOut = some (some 0, 0xFFFFFFDF) := by decide

theorem test_is_set_low : (stepOn [0x1D000085] (port0 0 0xFFFFFFDF 0 0)).map resultOut =
    some (some 1, 0xFFFFFFDF) := by decide

/-! Delays (section L2.5). -/

/-- An engine at this frequency. -/
def engineAt (f : Word) : State := { State.reset with freq := some f }

theorem test_dcfg_default : (stepOn [0x30000000] State.reset).map (fun t => t.freq) = some (some 48000000) := by decide

theorem test_dcfg : (stepOn [0x31000000, 0] (engineAt 48000000)).map (fun t => (t.freq, t.pc)) = some (some 0, 2) := by
  decide

theorem test_delay_ns : (stepOn [0x32000000, 1000] (engineAt 48000000)).map (fun t => (t.ticks, t.cnt)) = some (48, 0) ∧
    (stepOn [0x32000000, 20] (engineAt 48000000)).map (fun t => t.ticks) = some 1 := by decide

theorem test_delay_us : (stepOn [0x33000000, 0xFFFFFFFF] (engineAt 48000000)).map (fun t => t.ticks) =
    some 206158430160 ∧ (stepOn [0x33000000, 0] (engineAt 48000000)).map (fun t => t.ticks) = some 1 := by decide

theorem test_delay_ms : (stepOn [0x34000000, 1000] (engineAt 32768)).map (fun t => t.ticks) = some 32000 ∧
    (stepOn [0x34000000, 0] (engineAt 48000000)).map (fun t => (t.ticks, t.pc)) = some (0, 2) := by decide

/-! Stops. -/

theorem test_abort : (stepOn [0x01FF0000] (port0 5 0 0 0)).map (fun t => (t.status, t.pc, t.events)) =
    some (.abortedInvalidPort 0xFF, 0, [.abort 0xFF]) := by decide

theorem test_refuse : (stepOn [0x1B0000C0] (port0 5 0 0 0)).map (fun t => (t.status, t.pc, quad t)) =
    some (.refused .modeNotPermitted, 0, (5, 0, 0, 0)) := by decide

theorem test_fault : (stepOn [0x34000000, 0] State.reset).map (fun t => (t.status, t.pc, t.ticks)) =
    some (.faultedDelayUnconfigured, 0, 0) := by decide

theorem test_unsupported_pin : (stepOn [0x1B00009F] narrowed).map (fun t => (t.status, t.pc, t.events)) =
    some (.refused .unsupportedPin, 0, []) := by decide

/-! Assembly (R72 to R74; programs of section L3). -/

theorem test_assemble_text :
    assembleText "delay.default ; engine\nled = pin.output 0, 13\n\nset_low led\ndelay_ms 2\nreg.modify 0, DIR, 0, 0x08" =
      .ok [0x30000000, 0x0300000D, 0x1900008D, 0x34000000, 2, 0x23000000, 0, 8] := by decide

theorem test_assemble_walk :
    assembleText "a = pin.input_pull_up 1, 5\nread a\nb = into_output a\nset_state b, high\nd = into_input b" =
      .ok [0x02010005, 0x10010045, 0x07010045, 0x1A0100A5, 0x05010085] := by decide

/-- One program that each check refuses, and a line that is no statement. -/
theorem test_assemble_refusals :
    assembleText "a = pin.input 0, 1\na = pin.output 0, 2" = .error (.illTyped 2 .wt1) ∧
    assembleText "a = pin.input 0, 1\nb = into_output a\nread a" = .error (.illTyped 3 .wt2) ∧
    assembleText "a = pin.input 0, 1\nset_high a" = .error (.illTyped 2 .wt3) ∧
    assembleText "a = pin.input 0, 1\nb = into_input a" = .error (.illTyped 2 .wt4) ∧
    assembleText "delay_us 1" = .error (.illTyped 1 .wt5) ∧
    assembleText "reg.write 0, IN, 1" = .error (.illTyped 1 .wt6) ∧
    assembleText "a = pin.input 0, 32" = .error (.malformed 1) := by decide

/-! Witnesses: for each obligation with hypotheses, a state and operands that meet them, and a boundary value of each
clause. -/

theorem witness_DecodeOfEncodeIsTheCommand : (Instr.setState 0xFF .outputOpenDrain .high 31).wf = true := by decide

theorem witness_DecodedWordsAreTheEncoding :
    decode [0x23FF1000, 0xFFFFFFFF, 0, 7] = .ok (.regModify 0xFF .pu 0xFFFFFFFF 0) := by decide

theorem witness_OpcodeRowsCoverAndDoNotOverlap :
    decode [0x050000DF] = .ok (.intoInputFromOod 0 31) ∧
    (⟨0xFF00FFE0, 0x050000C0⟩ : OpcodeRow) ∈ opcodeRows ∧
    OpcodeRow.selects ⟨0xFF00FFE0, 0x050000C0⟩ 0x050000DF = true := by decide

theorem witness_UnassignedOpcodesAreIllegal :
    allRefused .illegalOpcode [[0x00000000], [0x09000000], [0x0F000000], [0x13000000], [0x17000000], [0x1E000000],
      [0x1F000000], [0x24000000], [0x2F000000], [0x35000000], [0xFF000000]] = true ∧
    decode [0x01000000] = .ok (.mkInput 0 0) ∧ decode [0x08000000] = .ok (.intoOutputOdFromIn 0 0) ∧
    decode [0x10000000] = .ok (.read 0 .input 0) ∧ decode [0x12000000] = .ok (.isLow 0 .input 0) ∧
    decode [0x18000080] = .ok (.setHigh 0 .output 0) ∧ decode [0x1D000080] = .ok (.isSetLow 0 0) ∧
    decode [0x20000000] = .ok (.base 0) ∧ decode [0x23000000, 0, 0] = .ok (.regModify 0 .dir 0 0) ∧
    decode [0x30000000] = .ok .dcfgDefault ∧ decode [0x34000000, 0] = .ok (.delayMs 0) := by decide

theorem witness_ShortStreamsAreTruncated :
    allRefused .truncated [[0x22000000], [0x31000000], [0x32000000], [0x33000000], [0x34000000], [0x23000000]] = true ∧
    decode [0x23000000, 0] = .error .truncated ∧ decode [0x22000000, 0] = .ok (.regWrite 0 .dir 0) ∧
    decode [0x23000000, 0, 0] = .ok (.regModify 0 .dir 0 0) := by decide

theorem witness_NonzeroReservedFieldsAreRefused :
    allRefused .reservedFieldNonzero [[0x01000100, 0, 0], [0x01000040, 0, 0], [0x04000020, 0, 0],
      [0x05000144, 0, 0], [0x05000064, 0, 0], [0x10000020, 0, 0], [0x1D0080A0, 0, 0], [0x1A000180, 0, 0],
      [0x20000100, 0, 0], [0x20000001, 0, 0], [0x21000001, 0, 0], [0x22000020, 0, 0], [0x23000040, 0, 0],
      [0x30010000, 0, 0], [0x34000100, 0, 0], [0x31000001, 0, 0]] = true := by decide

theorem witness_SameModeTransitionsAreRefused :
    allRefused .sameModeTransition [[0x05000004], [0x06000044], [0x07000084], [0x080000C4], [0x05FF001F]] = true := by decide

theorem witness_WrongPinModesAreRefused :
    allRefused .modeNotPermitted [[0x10000083], [0x110000C0], [0x120000DF], [0x18000003], [0x19000040],
      [0x1A000060], [0x1B0000C0], [0x1C000000], [0x1D000040]] = true := by decide

theorem witness_IllegalOffsetsAreRefused :
    allRefused .illegalOffset [[0x21001400, 0, 0], [0x21000200, 0, 0], [0x2100FF00, 0, 0], [0x22000800, 0, 0],
      [0x22000100, 0, 0], [0x23000800, 0, 0], [0x23001100, 0, 0]] = true ∧
    decode [0x21000800, 0, 0] = .ok (.regRead 0 .input) := by decide

theorem witness_StepRunsTheDecodedCommand :
    (holding [0x0100001F] State.reset).status = .run ∧
    (holding [0x0100001F] State.reset).pc < (holding [0x0100001F] State.reset).stream.length ∧
    decode ((holding [0x0100001F] State.reset).stream.drop (holding [0x0100001F] State.reset).pc) = .ok (.mkInput 0 31) := by
  decide

theorem witness_RefusalOnlySetsStatus :
    ((holding [0x32000000] State.reset).status = .run ∧
      (holding [0x32000000] State.reset).pc < (holding [0x32000000] State.reset).stream.length ∧
      decode ((holding [0x32000000] State.reset).stream.drop 0) = .error .truncated) ∧
    ((Instr.toggle 0 31).port? = some 0 ∧ (Instr.toggle 0 31).pin? = some 31 ∧ narrowed.config.validPort 0 = true ∧
      narrowed.config.pinImplemented 0 31 = false) := by decide

theorem witness_InvalidPortAborts :
    (Instr.base 0xFF).port? = some 0xFF ∧ State.reset.config.validPort 0xFF = false := by decide

theorem witness_DelayWithoutEngineFaults : State.reset.freq = none ∧ Instr.delayMs 0 ∈ [.delayNs 0, .delayUs 0, .delayMs 0] := by
  decide

theorem witness_TerminalStatusHasNoStep : { State.reset with status := .faultedDelayUnconfigured }.status ≠ .run := by decide

theorem witness_CompleteRunHasNoStep : State.reset.complete = true := by decide

theorem witness_StoppedBlockRecordsItsCommand :
    ∃ t, step (holding [0x01FF0000] State.reset) = .next t ∧ t.status ≠ .run ∧
      t.stopRecord = some { code := 0x01, pc := 0, w0 := some 0x01FF0000 } := ⟨_, rfl, by decide, by decide⟩

theorem witness_RunningStepAnswersNext :
    (holding [0] State.reset).status = .run ∧ (holding [0] State.reset).pc < (holding [0] State.reset).stream.length := by
  decide

theorem witness_PcAdvancesByCommandLength :
    (∃ t, step (holding [0x23000000, 0, 0] State.reset) = .next t ∧ t.status = .run ∧ t.pc = 3) ∧
    ∃ t, step (holding [0x23000000, 0] State.reset) = .next t ∧ t.status ≠ .run ∧ t.pc = 0 :=
  ⟨⟨_, rfl, by decide, by decide⟩, ⟨_, rfl, by decide, by decide⟩⟩

theorem witness_ResetLeavesTheStatedValues :
    (∃ q, Config.reference.portConfig 1 = some q ∧ q.base = 0x10000100) ∧
    { State.reset with status := .refused .truncated }.status ≠ .run := ⟨⟨_, rfl, by decide⟩, by decide⟩

/-- For BaseReturnsTheBaseAddress, RegReadReturnsTheRegister, RegWriteStoresTheWholeWord, RegModifyReadsThenWrites and
ModifyLawHoldsBitwise: a valid port, fully implemented and narrowed. -/
theorem witness_register_access :
    l21.config.validPort 1 = true ∧ l21.config.fullPort 1 = true ∧
    narrowed.config.validPort 0 = true ∧ narrowed.config.fullPort 0 = false := by decide

theorem witness_ModifyLawHoldsBitwise :
    ((0x80000000 : Word).getLsbD 31 = true ∧ (0 : Word).getLsbD 31 = false ∧
      (l21.config.implemented 0).getLsbD 31 = true) ∧
    (Instr.toggle 0 31).port? = some 0 ∧ (Instr.toggle 0 31).pin? = some 31 ∧
    ∃ t, exec (.toggle 0 31) l21 = .next t := ⟨by decide, by decide, by decide, _, rfl⟩

theorem witness_AddressAccessIsRegisterAccess :
    State.reset.config.wf = true ∧ State.reset.config.validPort 1 = true ∧
    State.reset.config.regAddress 1 (.stored .pu) = 0x10000110 := by decide

/-- For PinCommandsPerformTheirSteps, PinCommandsTouchOnlyTheirPin, ReentryEqualsFreshOutput, UnknownPinReachesInput,
ToggleInvertsThePin and TwoTogglesRestoreThePin: a command with steps on an implemented pin of a valid port, full and
narrowed. -/
theorem witness_pin_commands :
    (Instr.intoOutputOdFromIpu 0 31).port? = some 0 ∧ (Instr.intoOutputOdFromIpu 0 31).pin? = some 31 ∧
    pinSteps (.intoOutputOdFromIpu 0 31) = some [(.pu, false), (.dir, true), (.od, true)] ∧
    State.reset.config.validPort 0 = true ∧ State.reset.config.fullPort 0 = true ∧
    State.reset.config.pinImplemented 0 31 = true ∧
    narrowed.config.validPort 0 = true ∧ narrowed.config.pinImplemented 0 30 = true ∧
    narrowed.config.fullPort 0 = false := by decide

theorem witness_ConstructorsReachTheirMode :
    State.reset.config.validPort 0 = true ∧ State.reset.config.pinImplemented 0 0 = true ∧
    ((port0 1 0 0 0).pinBits 0 0).pu = false ∧ ((port0 1 0 0 0).pinBits 0 0).od = false := by decide

theorem witness_TransitionsStayConsistent :
    transitionTo .inputPullUp .outputOpenDrain 0 4 = some (.intoInputPuFromOod 0 4) ∧
    (port0 0x11 0 0x110 0x10000).config.validPort 0 = true ∧
    (port0 0x11 0 0x110 0x10000).config.pinImplemented 0 4 = true ∧
    (port0 0x11 0 0x110 0x10000).encodedMode 0 4 = some .outputOpenDrain := by decide

theorem witness_ConsistentBitsAreTheFourModes :
    (⟨true, false, true⟩ : PinBits).mode = some .outputOpenDrain ∧ (⟨true, true, false⟩ : PinBits).mode = none := by decide

theorem witness_InputCommandsReturnTheDrawnLevel :
    State.reset.config.validPort 0 = true ∧ State.reset.config.pinImplemented 0 31 = true ∧
    ((Instr.isLow 0 .input 31 = .read 0 .input 31 ∨ Instr.isLow 0 .input 31 = .isHigh 0 .input 31) ∧
        (0 : Word) = (if { State.reset with samples := [0x80000000] }.drawValue.getLsbD (31 : PinIdx).toNat then 1 else 0) ∨
      Instr.isLow 0 .input 31 = .isLow 0 .input 31 ∧
        (0 : Word) = (if { State.reset with samples := [0x80000000] }.drawValue.getLsbD (31 : PinIdx).toNat then 0 else 1)) :=
  ⟨by decide, by decide, .inr ⟨rfl, by decide⟩⟩

theorem witness_IntrospectionReturnsTheStoredLevel :
    (port0 0 0x20 0 0).config.validPort 0 = true ∧ (port0 0 0x20 0 0).config.pinImplemented 0 5 = true ∧
    (Instr.isSetHigh 0 5 = .isSetHigh 0 5 ∧
        (1 : Word) = (if ((port0 0 0x20 0 0).stored 0 .out).getLsbD (5 : PinIdx).toNat then 1 else 0) ∨
      Instr.isSetHigh 0 5 = .isSetLow 0 5 ∧
        (1 : Word) = (if ((port0 0 0x20 0 0).stored 0 .out).getLsbD (5 : PinIdx).toNat then 0 else 1)) :=
  ⟨by decide, by decide, .inl ⟨rfl, by decide⟩⟩

theorem witness_SetLevelIsReadBack :
    State.reset.config.validPort 0 = true ∧ State.reset.config.pinImplemented 0 3 = true ∧
    (Instr.setLow 0 .output 3 = .setState 0 .output .low 3 ∨
      Instr.setLow 0 .output 3 = (if Level.low = .high then .setHigh 0 .output 3 else .setLow 0 .output 3)) := by decide

/-- For DelayNsCountsTheFloor, DelayUsCountsTheFloor and DelayMsRepeatsOneMillisecond: an engine, at frequency 0 too. -/
theorem witness_delays : (engineAt 0).freq = some 0 ∧ (engineAt 0xFFFFFFFF).freq = some 0xFFFFFFFF := by decide

theorem witness_ClampIsUnconditional : (engineAt 0).freq = some 0 ∧ Instr.delayUs 0 ∈ [.delayNs 0, .delayUs 0] := by decide

theorem witness_SpinIsItsLoop : (1 : Count) ≠ 0 ∧ (BitVec.allOnes 64 : Count) ≠ 0 := by decide

theorem witness_RegistersChangeOnlyByTheirCommands :
    (∃ t, exec (.toggle 0 0) State.reset = .next t) ∧ mayWrite (.toggle 0 0) .dir = false ∧
    (Instr.toggle 0 0).port? ≠ some 1 := ⟨⟨_, rfl⟩, by decide, by decide⟩

theorem witness_ResultChangesOnlyByReturningCommands :
    (∃ t, exec (.setHigh 0 .output 0) State.reset = .next t) ∧ returnsResult (.setHigh 0 .output 0) = false :=
  ⟨⟨_, rfl⟩, by decide⟩

theorem witness_DelayStateChangesOnlyByDelayCommands :
    (∃ t, exec (.delayUs 1) (engineAt 48000000) = .next t) ∧ isDelay (.base 0) = false ∧
    Instr.delayUs 1 ≠ .dcfgDefault ∧ ∀ hz, Instr.delayUs 1 ≠ .dcfg hz := ⟨⟨_, rfl⟩, by decide, by decide, nofun⟩

theorem witness_StepKeepsPlatformStreamAndPast : ∃ t, step (holding [0x03000000] State.reset) = .next t := ⟨_, rfl⟩

theorem witness_StepKeepsWellFormedStates :
    (holding [0x03000000] (port0 5 0 0 0)).wf = true ∧ ∃ t, step (holding [0x03000000] (port0 5 0 0 0)) = .next t :=
  ⟨by decide, _, rfl⟩

/-- A state with a past: port 0's OUT has been written, and a step follows. -/
def written : State := { holding [0x1C000000] (port0 0 5 0 0) with events := [.wr 0 .out 5] }

theorem witness_StepKeepsHistoryAgreement : written.HistoryAgrees ∧ ∃ t, step written = .next t := by
  refine ⟨⟨fun p r => ?_, fun earlier p r v later h => ?_, rfl, fun p => ?_⟩, _, rfl⟩
  · by_cases hp : p = 0
    · subst hp; cases r <;> decide
    · have h0 : ((0 : PortId) == p) = false := beq_false_of_ne (Ne.symm hp)
      have hget : regFileGet written.regs p = none := by
        show regFileGet [((0 : PortId), (⟨0, 5, 0, 0⟩ : PortRegs))] p = none
        rw [Laws.regFileGet_cons, if_neg hp]; rfl
      show (State.portRegs written p).get r = latestWrite p r ((written.config.resetRegs p).get r) [.wr 0 .out 5]
      have hne : ¬ ((0 : PortId) = p ∧ StoredReg.out = r) := fun h => hp h.1.symm
      rw [State.portRegs, hget, latestWrite, if_neg hne]; rfl
  · have hmem : Event.rd p (.stored r) v ∈ written.events := by rw [h]; simp
    simp [written] at hmem
  · simp [written, holding, port0, State.reset, State.resetWith]

theorem witness_DrawsReachOnlyResultAndHistory :
    State.withoutInputs { State.reset with samples := [1] } = State.withoutInputs { State.reset with draws := 7 } ∧
    (∀ p, (Instr.read 0 .input 0).port? = some p → State.reset.config.fullPort p = true) ∧
    (∃ t, exec (.read 0 .input 0) { State.reset with samples := [1] } = .next t) ∧
    (∃ t, exec (.read 0 .input 0) { State.reset with draws := 7 } = .next t) ∧
    readsInput (.toggle 0 0) = false :=
  ⟨by decide, fun p h => by cases h; decide, ⟨_, rfl⟩, ⟨_, rfl⟩, by decide⟩

theorem witness_WellTypedProgramsDecode :
    assemble [(1, .construct "led" .output 0 13), (2, .pinOp .toggle "led")] = .ok [0x0300000D, 0x1B00008D] := by decide

theorem witness_WellTypedProgramsOnlyAbort :
    (holding [0x0300000D, 0x1B00008D] State.reset).pc = 0 ∧ (holding [0x0300000D, 0x1B00008D] State.reset).status = .run ∧
    (∀ p k, State.reset.config.validPort p = true → State.reset.config.pinImplemented p k = true) ∧
    ∃ t, Host.Core.run Sys2Proof.core 2 (holding [0x0300000D, 0x1B00008D] State.reset) = .next t :=
  ⟨rfl, rfl, reference_full, _, rfl⟩

/-- Two states about to run READ that differ in the inputs, RESULT and the history. -/
theorem witness_StepsKeepAgreementUpToDraws :
    SameUpToDraws { holding [0x10000003] State.reset with samples := [1], result := some 5 }
      { holding [0x10000003] State.reset with draws := 7, events := [.res 9] } ∧
    (∀ p, State.reset.config.validPort p = true → State.reset.config.fullPort p = true) ∧
    ∃ t, step { holding [0x10000003] State.reset with samples := [1], result := some 5 } = .next t :=
  ⟨by unfold SameUpToDraws; decide, reference_fullPort, _, rfl⟩

end Sys2Proof.Tests
end

section
/-! SUPPORT. What every command keeps, from its micro-operations and its ends; and the proofs of the statements about the
state (10_state.md). -/

namespace Sys2Proof.Proofs

open Sys2Proof Sys2Proof.Machine Sys2Proof.Laws

/-! What a command keeps. -/

/-- A property that every micro-operation of a command and every end keeps holds after the command. An end keeps a
property of fields it does not change by definition. -/
theorem ends_keep {i : Instr} {P : State → Prop} {s t : State} (h : Ends i s t) (hs : P s)
    (hmicro : ∀ u v, Micro i u v → P u → P v)
    (hadvance : ∀ n u, P u → P (advance n u) := by exact fun _ _ => id)
    (habort : ∀ p u, P u → P (abortInvalidPort p u) := by exact fun _ _ => id)
    (hrefuse : ∀ u, P u → P (refuse .unsupportedPin u) := by exact fun _ => id)
    (hfault : ∀ u, P u → P (faultDelayUnconfigured u) := by exact fun _ => id) : P t := by
  cases h with
  | completes u hu => exact hadvance _ _ (hu.keep hmicro hs)
  | aborts p => exact habort p s hs
  | unsupported => exact hrefuse s hs
  | unconfigured => exact hfault s hs

/-- A command that starts with STATUS `Run` completes and moves pc on by its length, or ends the run and leaves pc. -/
theorem ends_pc {i : Instr} {s t : State} (h : Ends i s t) (hrun : s.status = .run) :
    (t.status = .run ∧ t.pc = s.pc + i.opcode.len) ∨ (t.status ≠ .run ∧ t.pc = s.pc) := by
  cases h with
  | completes u hu =>
    obtain ⟨-, -, hpc, hstatus⟩ := hu.fixed
    exact .inl ⟨hstatus.trans hrun, by simp [hpc]⟩
  | aborts p => exact .inr ⟨nofun, rfl⟩
  | unsupported => exact .inr ⟨nofun, rfl⟩
  | unconfigured => exact .inr ⟨nofun, rfl⟩

theorem ends_config_stream {i : Instr} {s t : State} (h : Ends i s t) :
    t.config = s.config ∧ t.stream = s.stream := by
  refine ends_keep (P := fun u => u.config = s.config ∧ u.stream = s.stream) h ⟨rfl, rfl⟩ (fun u v hm hu => ?_)
  obtain ⟨hconfig, hstream, -, -⟩ := (Micros.one hm).fixed
  exact ⟨hconfig.trans hu.1, hstream.trans hu.2⟩

/-- A micro-operation only appends to the history (R33). -/
theorem micro_events {i : Instr} {s t : State} (h : Micro i s t) : s.events <+: t.events := by
  cases h <;> simp

theorem ends_events {i : Instr} {s t : State} (h : Ends i s t) : s.events <+: t.events :=
  ends_keep (P := fun u => s.events <+: u.events) h List.prefix_rfl (fun _ _ hm hu => hu.trans (micro_events hm))
    (habort := fun _ _ hu => hu.trans (by simp))

theorem micro_stored {i : Instr} {s t : State} (h : Micro i s t) {p : PortId} {r : StoredReg}
    (hn : mayWrite i r = false ∨ i.port? ≠ some p) : t.stored p r = s.stored p r := by
  cases h with
  | read => exact regRead_stored ..
  | write q r' v _ hp _ hw =>
    have hother : ¬ (p = q ∧ r = r') := by
      rintro ⟨rfl, rfl⟩
      simp [hp, hw] at hn
    simp [hother]
  | result | engine => rfl
  | spins => exact spinTimes_stored ..

/-- A command leaves a register it may not write, and a register of a port it does not name (R21, R22, R24, R25). -/
theorem ends_stored {i : Instr} {s t : State} (h : Ends i s t) {p : PortId} {r : StoredReg}
    (hn : mayWrite i r = false ∨ i.port? ≠ some p) : t.stored p r = s.stored p r :=
  ends_keep (P := fun u => u.stored p r = s.stored p r) h rfl (fun _ _ hm hu => (micro_stored hm hn).trans hu)

theorem micro_result {i : Instr} {s t : State} (h : Micro i s t) (hn : returnsResult i = false) :
    t.result = s.result := by
  cases h with
  | result _ _ hr => simp [hr] at hn
  | read | write | engine | spins => simp

theorem ends_result {i : Instr} {s t : State} (h : Ends i s t) (hn : returnsResult i = false) : t.result = s.result :=
  ends_keep (P := fun u => u.result = s.result) h rfl (fun _ _ hm hu => (micro_result hm hn).trans hu)

theorem micro_ticks_le {i : Instr} {s t : State} (h : Micro i s t) : s.ticks ≤ t.ticks := by
  cases h <;> simp

theorem ends_ticks_le {i : Instr} {s t : State} (h : Ends i s t) : s.ticks ≤ t.ticks :=
  ends_keep (P := fun u => s.ticks ≤ u.ticks) h le_rfl (fun _ _ hm hu => hu.trans (micro_ticks_le hm))

theorem micro_ticks_cnt {i : Instr} {s t : State} (h : Micro i s t) (hn : isDelay i = false) :
    t.ticks = s.ticks ∧ t.cnt = s.cnt := by
  cases h with
  | spins _ _ _ hd => simp [hd] at hn
  | read | write | result | engine => simp

theorem ends_ticks_cnt {i : Instr} {s t : State} (h : Ends i s t) (hn : isDelay i = false) :
    t.ticks = s.ticks ∧ t.cnt = s.cnt := by
  refine ends_keep (P := fun u => u.ticks = s.ticks ∧ u.cnt = s.cnt) h ⟨rfl, rfl⟩ (fun u v hm hu => ?_)
  obtain ⟨hticks, hcnt⟩ := micro_ticks_cnt hm hn
  exact ⟨hticks.trans hu.1, hcnt.trans hu.2⟩

theorem micro_freq {i : Instr} {s t : State} (h : Micro i s t) (hdefault : i ≠ .dcfgDefault)
    (hdcfg : ∀ hz, i ≠ .dcfg hz) : t.freq = s.freq := by
  cases h with
  | engine hz _ he => exact absurd he (not_or.mpr ⟨hdefault, hdcfg hz⟩)
  | read | write | result | spins => simp

theorem ends_freq {i : Instr} {s t : State} (h : Ends i s t) (hdefault : i ≠ .dcfgDefault)
    (hdcfg : ∀ hz, i ≠ .dcfg hz) : t.freq = s.freq :=
  ends_keep (P := fun u => u.freq = s.freq) h rfl (fun _ _ hm hu => (micro_freq hm hdefault hdcfg).trans hu)

/-- A command writes only to a valid port, so the register file stays canonical. -/
theorem micro_canonical {i : Instr} {s t : State} (h : Micro i s t) (hs : s.regsCanonical = true) :
    t.regsCanonical = true := by
  cases h with
  | read p off => rwa [regsCanonical_congr (regRead_config p off s) (regRead_regs p off s)]
  | write p r v _ _ hv => exact store_canonical p r v s hv hs
  | result | engine => exact hs
  | spins n c => rwa [regsCanonical_congr (spinTimes_config n c s) (spinTimes_regs n c s)]

theorem ends_canonical {i : Instr} {s t : State} (h : Ends i s t) (hs : s.regsCanonical = true) :
    t.regsCanonical = true :=
  ends_keep (P := fun u => u.regsCanonical = true) h hs (fun _ _ => micro_canonical)

theorem micro_cnt_zero {i : Instr} {s t : State} (h : Micro i s t) (hs : s.cnt = 0) : t.cnt = 0 := by
  cases h with
  | spins n c => simp [spinTimes_cnt, hs]
  | read | write | result | engine => simpa using hs

/-- Every spin of a command has run out when the command ends (R28). -/
theorem ends_cnt_zero {i : Instr} {s t : State} (h : Ends i s t) (hs : s.cnt = 0) : t.cnt = 0 :=
  ends_keep (P := fun u => u.cnt = 0) h hs (fun _ _ => micro_cnt_zero)

/-! Every step. -/

theorem encode_length (i : Instr) : (encode i).length = i.opcode.len := by cases i <;> rfl

/-- The words of a command that decodes are all there. -/
theorem decode_ok_length {ws : List Word} {i : Instr} (h : decode ws = .ok i) : i.opcode.len ≤ ws.length := by
  cases ws with
  | nil => cases h
  | cons w0 rest => exact (decode_ok h).2.1

theorem wf_iff (s : State) : s.wf = true ↔ s.regsCanonical = true ∧ s.pc ≤ s.stream.length ∧ s.cnt = 0 := by
  simp [State.wf, and_assoc]

/-- Settles O51: the register file, pc and CNT of each end of the step. -/
theorem stepKeepsWellFormedStates : Obligations.StepKeepsWellFormedStates := by
  intro s t hwf hstep
  obtain ⟨hrun, -, ⟨why, -, rfl⟩ | ⟨i, hdec, hends⟩⟩ := step_next hstep
  · exact hwf
  · obtain ⟨hcanonical, hpc, hcnt⟩ := (wf_iff s).mp hwf
    have hlen : i.opcode.len ≤ s.stream.length - s.pc := by simpa using decode_ok_length hdec
    refine (wf_iff t).mpr ⟨ends_canonical hends hcanonical, ?_, ends_cnt_zero hends hcnt⟩
    rw [(ends_config_stream hends).2]
    obtain ⟨-, h⟩ | ⟨-, h⟩ := ends_pc hends hrun <;> omega

/-- Settles O52: nothing is listed, pc and CNT are 0. -/
theorem resetIsWellFormed : Obligations.ResetIsWellFormed := fun c =>
  (wf_iff _).mpr ⟨resetWith_canonical c, le_rfl, rfl⟩

/-- Settles O19: a refusal by decode leaves pc, and so do all ends of a command but its completion. -/
theorem pcAdvancesByCommandLength : Obligations.PcAdvancesByCommandLength := by
  intro s t hstep
  obtain ⟨hrun, -, ⟨why, -, rfl⟩ | ⟨i, hdec, hends⟩⟩ := step_next hstep
  · exact .inr ⟨nofun, rfl⟩
  · exact (ends_pc hends hrun).imp_left fun ⟨hstatus, hpc⟩ => ⟨hstatus, i, hdec, hpc, encode_length i⟩

/-- Settles O50: a refusal by decode only sets STATUS, and no end of a command removes a record. -/
theorem stepKeepsPlatformStreamAndPast : Obligations.StepKeepsPlatformStreamAndPast := by
  intro s t hstep
  obtain ⟨-, -, ⟨why, -, rfl⟩ | ⟨i, -, hends⟩⟩ := step_next hstep
  · exact ⟨rfl, rfl, [], by simp⟩
  · obtain ⟨hconfig, hstream⟩ := ends_config_stream hends
    obtain ⟨evs, hevs⟩ := ends_events hends
    exact ⟨hconfig, hstream, evs, hevs.symm⟩

/-- Settles O47: a command's writes are to its own port and to the registers it may write. -/
theorem registersChangeOnlyByTheirCommands : Obligations.RegistersChangeOnlyByTheirCommands :=
  fun _ _ _ h =>
    ⟨fun _ _ hn => ends_stored (exec_next h) (.inl hn), fun _ _ hn => ends_stored (exec_next h) (.inr hn)⟩

/-- Settles O48: only the micro-operation of returning commands writes RESULT. -/
theorem resultChangesOnlyByReturningCommands : Obligations.ResultChangesOnlyByReturningCommands :=
  fun _ _ _ h => ends_result (exec_next h)

/-- Settles O49: only spins move ticks and CNT, only a snapshot moves FREQ. -/
theorem delayStateChangesOnlyByDelayCommands : Obligations.DelayStateChangesOnlyByDelayCommands :=
  fun _ _ _ h => ⟨ends_ticks_le (exec_next h), ends_ticks_cnt (exec_next h), ends_freq (exec_next h)⟩

theorem step_of_decode_ok {s : State} {i : Instr} (hrun : s.status = .run) (hpc : s.pc < s.stream.length)
    (hdec : decode (s.stream.drop s.pc) = .ok i) : step s = exec i s := by
  simp [step, hrun, hpc.ne, hpc.not_gt, hdec]

theorem step_of_decode_error {s : State} {why : RefusalReason} (hrun : s.status = .run) (hpc : s.pc < s.stream.length)
    (hdec : decode (s.stream.drop s.pc) = .error why) : step s = .next (refuse why s) := by
  simp [step, hrun, hpc.ne, hpc.not_gt, hdec, done]

/-- Settles O11: none of step's checks stops it. -/
theorem stepRunsTheDecodedCommand : Obligations.StepRunsTheDecodedCommand :=
  fun _ _ => step_of_decode_ok

/-- Settles O15: the check of STATUS is step's first. -/
theorem terminalStatusHasNoStep : Obligations.TerminalStatusHasNoStep := fun s h => by
  simp [step, h]

/-- Settles O16: the check for the end of the stream follows that of STATUS. -/
theorem completeRunHasNoStep : Obligations.CompleteRunHasNoStep := fun s h => by
  obtain ⟨hrun, hpc⟩ : s.status = .run ∧ s.pc = s.stream.length := by simpa [State.complete] using h
  simp [step, hrun, hpc]

/-! The encoded mode and the register commands. -/

/-- Settles O31: the eight triples of bits. -/
theorem consistentBitsAreTheFourModes : Obligations.ConsistentBitsAreTheFourModes := by
  intro s p k dir pu od
  have hbits : s.pinBits p k = ⟨dir, pu, od⟩ := rfl
  simp only [State.encodedMode, hbits]
  generalize dir = d, pu = u, od = o
  revert d u o
  decide

theorem regRead_input (p : PortId) (s : State) : regRead p .input s =
    (s.drawValue, { s with
      events := s.events ++ [.rd p .input s.drawValue]
      samples := s.samples.tail
      draws := s.draws + 1 }) := rfl

theorem regRead_stored_full {p : PortId} {s : State} (hf : s.config.fullPort p = true) (r : StoredReg) :
    regRead p (.stored r) s = (s.stored p r, { s with events := s.events ++ [.rd p (.stored r) (s.stored p r)] }) := by
  simp [Machine.regRead, readValue_full s p r hf, readDraws_full s p r hf, State.log]

theorem exec_regRead {p : PortId} {s : State} (hv : s.config.validPort p = true) (off : Reg) :
    exec (.regRead p off) s = .next (advance 1 (setResult (regRead p off s).1 (regRead p off s).2)) :=
  congrArg Host.Outcome.next (onPort_valid hv)

/-- Settles O22: the read and the result, with the draw where one is made. -/
theorem regReadReturnsTheRegister : Obligations.RegReadReturnsTheRegister := by
  refine ⟨fun s p hv => ?_, fun s p r hv hf => ?_, fun s p r hv => ?_⟩
  · rw [exec_regRead hv, regRead_input]
    simp [setResult, advance, State.log]
  · rw [exec_regRead hv, regRead_stored_full hf]
    simp [setResult, advance, State.log]
  · refine ⟨_, _, exec_regRead hv _, rfl, readValue_implemented s p r, ?_, ?_, ?_, ?_, fun q r' => ?_⟩
    · simp
    · simp
    · simp [SamePlatform]
    · simp [SameDelay]
    · simp

/-- Settles O23: read after write on the register file. -/
theorem regWriteStoresTheWholeWord : Obligations.RegWriteStoresTheWholeWord := by
  intro s p r v hv
  have hexec : exec (.regWrite p r v) s = .next (advance 2 (regWrite p r v s)) :=
    congrArg Host.Outcome.next (onPort_valid hv)
  refine ⟨_, hexec, ?_, fun q r' hother => ?_, rfl, rfl, rfl, ⟨rfl, rfl, rfl⟩, ⟨rfl, rfl, rfl⟩, ⟨rfl, rfl⟩⟩
  · simp
  · simp [hother]

theorem boolToWord_high (t : Word) (k : PinIdx) :
    boolToWord (levelOf t k == .high) = if t.getLsbD k.toNat then 1 else 0 := by
  rw [levelOf_eq]; cases t.getLsbD k.toNat <;> rfl

theorem boolToWord_low (t : Word) (k : PinIdx) :
    boolToWord (levelOf t k == .low) = if t.getLsbD k.toNat then 0 else 1 := by
  rw [levelOf_eq]; cases t.getLsbD k.toNat <;> rfl

theorem levelToBool_eq (l : Level) : levelToBool l = (l == .high) := by cases l <;> rfl

/-- A test of a pin's sampled level: one draw, and RESULT the test's truth value. -/
theorem testPin_input {s : State} {p : PortId} {k : PinIdx} (hv : s.config.validPort p = true)
    (hk : s.config.pinImplemented p k = true) (test : Level → Bool) :
    testPin p .input k test s =
      { s with
        result := some (boolToWord (test (levelOf s.drawValue k)))
        events := s.events ++ [.rd p .input s.drawValue, .res (boolToWord (test (levelOf s.drawValue k)))]
        pc := s.pc + 1
        samples := s.samples.tail
        draws := s.draws + 1 } := by
  rw [testPin, onPin_valid hv hk, regRead_input]
  simp [setResult, advance, State.log]

/-- Settles O34: all three are tests of one sampled level. -/
theorem inputCommandsReturnTheDrawnLevel : Obligations.InputCommandsReturnTheDrawnLevel := by
  rintro s p m k i v hv hk (⟨rfl | rfl, rfl⟩ | ⟨rfl, rfl⟩)
  · simp only [exec, execRead, done, testPin_input hv hk, levelToBool_eq, boolToWord_high]
  · simp only [exec, execIsHigh, done, testPin_input hv hk, boolToWord_high]
  · simp only [exec, execIsLow, done, testPin_input hv hk, boolToWord_low]

/-! The agreement of state and history. -/

theorem latestWrite_append (p : PortId) (r : StoredReg) (before : Word) (xs ys : List Event) :
    latestWrite p r before (xs ++ ys) = latestWrite p r (latestWrite p r before xs) ys := by
  induction xs generalizing before with
  | nil => rfl
  | cons e rest ih => cases e <;> exact ih _

theorem latestResult_append (before : Option Word) (xs ys : List Event) :
    latestResult before (xs ++ ys) = latestResult (latestResult before xs) ys := by
  induction xs generalizing before with
  | nil => rfl
  | cons e rest ih => cases e <;> exact ih _

/-- Agreement depends on the platform, the stored registers, RESULT, the history, and which abort STATUS is. -/
theorem historyAgrees_congr {s t : State} (h : s.HistoryAgrees) (hconfig : t.config = s.config)
    (hregs : ∀ p r, t.stored p r = s.stored p r) (hevents : t.events = s.events) (hresult : t.result = s.result)
    (hstatus : ∀ p, t.status = .abortedInvalidPort p ↔ s.status = .abortedInvalidPort p) : t.HistoryAgrees where
  registers p r := by simpa [State.resetValue, hconfig, hregs, hevents] using h.registers p r
  reads earlier p r v later he := by
    simpa [State.resetValue, hconfig] using h.reads earlier p r v later (hevents ▸ he)
  result := by simpa [State.ResultFollowsHistory, hresult, hevents] using h.result
  aborts p := by rw [hevents, hstatus]; exact h.aborts p

/-- Agreement is kept when one more event is recorded with its effect: a write changes its register, a read returned the
stored bits, a result is RESULT, an abort is STATUS. -/
theorem historyAgrees_record {s t : State} {e : Event} (h : s.HistoryAgrees) (hconfig : t.config = s.config)
    (hevents : t.events = s.events ++ [e]) (hregs : ∀ p r, t.stored p r = latestWrite p r (s.stored p r) [e])
    (hread : ∀ p r v, e = .rd p (.stored r) v →
      v &&& s.config.implemented p = s.stored p r &&& s.config.implemented p)
    (hresult : t.result = latestResult s.result [e])
    (hstatus : ∀ p, t.status = .abortedInvalidPort p ↔ s.status = .abortedInvalidPort p ∨ e = .abort p) :
    t.HistoryAgrees where
  registers p r := by
    rw [hregs, h.registers p r, hevents, latestWrite_append, State.resetValue, State.resetValue, hconfig]
  reads earlier p r v later he := by
    rw [State.resetValue, hconfig]
    rw [hevents] at he
    obtain rfl | ⟨later', last, rfl⟩ := List.eq_nil_or_concat later
    · obtain ⟨rfl, hlast⟩ := List.append_inj' he rfl
      rw [hread p r v (List.singleton_inj.mp hlast), h.registers p r, State.resetValue]
    · have he' : s.events ++ [e] = (earlier ++ .rd p (.stored r) v :: later') ++ [last] := by simpa using he
      exact h.reads earlier p r v later' (List.append_inj' he' rfl).1
  result := by rw [State.ResultFollowsHistory, hresult, h.result, hevents, latestResult_append]
  aborts p := by rw [hevents, hstatus, ← h.aborts p, List.mem_append, List.mem_singleton, eq_comm (a := e)]

theorem micro_historyAgrees {i : Instr} {s t : State} (h : Micro i s t) (hs : s.HistoryAgrees) : t.HistoryAgrees := by
  cases h with
  | read p off =>
    refine historyAgrees_record hs (regRead_config ..) (regRead_events ..) (fun q r => regRead_stored ..) ?_
      (regRead_result ..) (by simp)
    intro q r v he
    cases he
    exact readValue_implemented s _ _
  | write p r v =>
    refine historyAgrees_record hs rfl (regWrite_events ..) (fun q r' => ?_) nofun rfl (by simp)
    simp [latestWrite, eq_comm]
  | result v => exact historyAgrees_record hs rfl rfl (fun _ _ => rfl) nofun rfl (by simp)
  | engine hz => exact historyAgrees_congr hs rfl (fun _ _ => rfl) rfl rfl (fun _ => Iff.rfl)
  | spins n c => exact historyAgrees_congr hs (by simp) (by simp) (by simp) (by simp) (by simp)

theorem refuse_historyAgrees {s : State} (why : RefusalReason) (hs : s.HistoryAgrees) (hrun : s.status = .run) :
    (refuse why s).HistoryAgrees :=
  historyAgrees_congr hs rfl (fun _ _ => rfl) rfl rfl (by simp [hrun])

theorem ends_historyAgrees {i : Instr} {s t : State} (h : Ends i s t) (hs : s.HistoryAgrees) (hrun : s.status = .run) :
    t.HistoryAgrees := by
  cases h with
  | completes u hu =>
    have hu' : u.HistoryAgrees := hu.keep (fun _ _ => micro_historyAgrees) hs
    exact historyAgrees_congr hu' rfl (fun _ _ => rfl) rfl rfl (fun _ => Iff.rfl)
  | aborts p => exact historyAgrees_record hs rfl rfl (fun _ _ => rfl) nofun rfl (by simp [hrun])
  | unsupported => exact refuse_historyAgrees _ hs hrun
  | unconfigured => exact historyAgrees_congr hs rfl (fun _ _ => rfl) rfl rfl (by simp [hrun])

/-- Settles O53: every micro-operation records one event with its effect, or touches neither. -/
theorem stepKeepsHistoryAgreement : Obligations.StepKeepsHistoryAgreement := by
  intro s t hs hstep
  obtain ⟨hrun, -, ⟨why, -, rfl⟩ | ⟨i, -, hends⟩⟩ := step_next hstep
  · exact refuse_historyAgrees why hs hrun
  · exact ends_historyAgrees hends hs hrun

/-- Settles O54: nothing is listed and nothing recorded. -/
theorem resetAgreesWithHistory : Obligations.ResetAgreesWithHistory := fun c =>
  { registers := fun _ _ => rfl
    reads := fun _ _ _ _ _ he => by simp [State.resetWith] at he
    result := rfl
    aborts := fun _ => by simp [State.resetWith] }

/-! Agreement up to draws. -/

/-- The states agree on all but the environment's inputs, RESULT and the history; and, if `past` holds, on RESULT and the
history too. -/
structure Agree (past : Prop) (s t : State) : Prop where
  config : s.config = t.config
  stream : s.stream = t.stream
  pc     : s.pc = t.pc
  status : s.status = t.status
  regs   : s.regs = t.regs
  freq   : s.freq = t.freq
  cnt    : s.cnt = t.cnt
  ticks  : s.ticks = t.ticks
  result : past → s.result = t.result
  events : past → s.events = t.events

theorem sameUpToDraws_iff_agree (s t : State) : SameUpToDraws s t ↔ Agree False s t := by
  constructor
  · intro h
    simp only [SameUpToDraws, State.withoutInputs, State.mk.injEq] at h
    obtain ⟨hconfig, hstream, hpc, hstatus, -, hregs, hfreq, hcnt, hticks, -⟩ := h
    exact ⟨hconfig, hstream, hpc, hstatus, hregs, hfreq, hcnt, hticks, nofun, nofun⟩
  · intro h
    simp [SameUpToDraws, State.withoutInputs, h.config, h.stream, h.pc, h.status, h.regs, h.freq, h.cnt, h.ticks]

theorem withoutInputs_eq_iff_agree (s t : State) : s.withoutInputs = t.withoutInputs ↔ Agree True s t := by
  constructor
  · intro h
    simp only [State.withoutInputs, State.mk.injEq] at h
    obtain ⟨hconfig, hstream, hpc, hstatus, hresult, hregs, hfreq, hcnt, hticks, hevents, -⟩ := h
    exact ⟨hconfig, hstream, hpc, hstatus, hregs, hfreq, hcnt, hticks, fun _ => hresult, fun _ => hevents⟩
  · intro h
    simp [State.withoutInputs, h.config, h.stream, h.pc, h.status, h.regs, h.freq, h.cnt, h.ticks, h.result, h.events]

section
variable {past : Prop} {s t : State} {p : PortId}

theorem Agree.weaken (h : Agree True s t) : Agree past s t :=
  { h with result := fun _ => h.result trivial, events := fun _ => h.events trivial }

theorem Agree.stored (h : Agree past s t) (q : PortId) (r : StoredReg) : s.stored q r = t.stored q r :=
  stored_congr h.config h.regs q r

theorem Agree.advance (h : Agree past s t) (n : Nat) : Agree past (advance n s) (advance n t) :=
  { h with pc := by simp [h.pc] }

theorem Agree.refuse (h : Agree past s t) (why : RefusalReason) : Agree past (refuse why s) (refuse why t) :=
  { h with status := rfl }

theorem Agree.abort (h : Agree past s t) (p : PortId) : Agree past (abortInvalidPort p s) (abortInvalidPort p t) :=
  { h with status := rfl, events := fun hpast => by simp [h.events hpast] }

theorem Agree.fault (h : Agree past s t) : Agree past (faultDelayUnconfigured s) (faultDelayUnconfigured t) :=
  { h with status := rfl }

theorem Agree.setFreq (h : Agree past s t) {f g : Option Word} (hfg : f = g) :
    Agree past { s with freq := f } { t with freq := g } :=
  { h with freq := hfg }

theorem Agree.spinTimes (h : Agree past s t) (n : Nat) (c : Count) : Agree past (spinTimes n c s) (spinTimes n c t) where
  config := by simp [h.config]
  stream := by simp [h.stream]
  pc     := by simp [h.pc]
  status := by simp [h.status]
  regs   := by simp [h.regs]
  freq   := by simp [h.freq]
  cnt    := by simp [spinTimes_cnt, h.cnt]
  ticks  := by simp [h.ticks]
  result := by simpa using h.result
  events := by simpa using h.events

theorem Agree.spin (h : Agree past s t) (c : Count) : Agree past (spin c s) (spin c t) :=
  { h with cnt := rfl, ticks := by simp [h.ticks] }

theorem Agree.setResult (h : Agree past s t) {v w : Word} (hvw : past → v = w) :
    Agree past (setResult v s) (setResult w t) :=
  { h with
    result := fun hpast => by simp [hvw hpast]
    events := fun hpast => by simp [hvw hpast, h.events hpast] }

theorem Agree.regWrite (h : Agree past s t) (r : StoredReg) (v : Word) :
    Agree past (regWrite p r v s) (regWrite p r v t) :=
  { h with
    regs := by simp [Machine.regWrite, State.store, State.portRegs, h.regs, h.config]
    events := fun hpast => by simp [h.events hpast] }

/-- On a fully implemented port a read of a stored register returns the same in both (R26). -/
theorem Agree.readValue_stored (h : Agree past s t) (hf : s.config.fullPort p = true) (r : StoredReg) :
    s.readValue p (.stored r) = t.readValue p (.stored r) := by
  rw [readValue_full s p r hf, readValue_full t p r (h.config ▸ hf), h.stored]

/-- A read that returns the same in both, or whose record is not compared. -/
theorem Agree.regRead (h : Agree past s t) {off : Reg} (hvalue : past → s.readValue p off = t.readValue p off) :
    Agree past (regRead p off s).2 (regRead p off t).2 where
  config := by simp [h.config]
  stream := by simp [h.stream]
  pc     := by simp [h.pc]
  status := by simp [h.status]
  regs   := by simp [h.regs]
  freq   := by simp [h.freq]
  cnt    := by simp [h.cnt]
  ticks  := by simp [h.ticks]
  result := by simpa using h.result
  events := fun hpast => by simp [h.events hpast, hvalue hpast]

/-- A read of a stored register and a write of a word computed from it. -/
theorem Agree.readThenWrite (h : Agree past s t) (hf : s.config.fullPort p = true) (r : StoredReg) (f : Word → Word) :
    Agree past (Machine.regWrite p r (f (Machine.regRead p (.stored r) s).1) (Machine.regRead p (.stored r) s).2)
      (Machine.regWrite p r (f (Machine.regRead p (.stored r) t).1) (Machine.regRead p (.stored r) t).2) := by
  have hvalue := h.readValue_stored hf r
  rw [regRead_value, regRead_value, hvalue]
  exact (h.regRead fun _ => hvalue).regWrite r _

theorem Agree.regModify (h : Agree past s t) (hf : s.config.fullPort p = true) (r : StoredReg) (clr set : Word) :
    Agree past (regModify p r clr set s) (regModify p r clr set t) :=
  h.readThenWrite hf r fun v => maskedUpdate v clr set

theorem Agree.doSteps (h : Agree past s t) (hf : s.config.fullPort p = true) (k : PinIdx) (steps : List PinStep) :
    Agree past (doSteps p k steps s) (doSteps p k steps t) := by
  induction steps generalizing s t with
  | nil => exact h
  | cons st rest ih =>
    have hstep : Agree past (doStep p k s st) (doStep p k t st) := by
      unfold doStep
      split
      · exact h.regModify hf st.1 0 (pinMask k)
      · exact h.regModify hf st.1 (pinMask k) 0
    exact ih hstep (by simpa using hf)

theorem Agree.onPort (h : Agree past s t) {body : State → State}
    (hb : s.config.validPort p = true → Agree past (body s) (body t)) :
    Agree past (onPort p body s) (onPort p body t) := by
  unfold Machine.onPort
  rw [← h.config]
  split
  · exact hb ‹_›
  · exact h.abort p

theorem Agree.onPin (h : Agree past s t) {k : PinIdx} {body : State → State}
    (hb : s.config.validPort p = true → Agree past (body s) (body t)) :
    Agree past (onPin p k body s) (onPin p k body t) := by
  refine h.onPort fun hv => ?_
  rw [← h.config]
  split
  · exact hb hv
  · exact h.refuse .unsupportedPin

theorem Agree.withEngine (h : Agree past s t) {body : Word → State → State}
    (hb : ∀ f, Agree past (body f s) (body f t)) : Agree past (withEngine body s) (withEngine body t) := by
  unfold Machine.withEngine
  rw [← h.freq]
  split
  · exact hb _
  · exact h.fault

theorem Agree.testPin (h : Agree past s t) {off : Reg} {k : PinIdx} {test : Level → Bool}
    (hvalue : s.config.validPort p = true → past → s.readValue p off = t.readValue p off) :
    Agree past (testPin p off k test s) (testPin p off k test t) :=
  h.onPin fun hv => ((h.regRead (hvalue hv)).setResult fun hpast => by simp [hvalue hv hpast]).advance 1

/-- The commands with a list of steps. -/
theorem exec_pinSteps_agree (h : Agree past s t) {i : Instr} {k : PinIdx} {steps : List PinStep}
    (hp : i.port? = some p) (hk : i.pin? = some k) (hs : pinSteps i = some steps)
    (hfull : ∀ q, i.port? = some q → s.config.validPort q = true → s.config.fullPort q = true) :
    ∃ s' t', exec i s = .next s' ∧ exec i t = .next t' ∧ Agree past s' t' :=
  ⟨_, _, exec_pinSteps hp hk hs s, exec_pinSteps hp hk hs t,
    h.onPin fun hv => (h.doSteps (hfull p hp hv) k steps).advance 1⟩

/-- A command on a fully implemented port, or on an invalid one or none, keeps agreement, of RESULT and the history too
if it does not read `IN`. -/
theorem exec_agree (h : Agree past s t) (i : Instr)
    (hfull : ∀ q, i.port? = some q → s.config.validPort q = true → s.config.fullPort q = true)
    (hpast : past → readsInput i = false) :
    ∃ s' t', exec i s = .next s' ∧ exec i t = .next t' ∧ Agree past s' t' := by
  cases i with
  | setState p m l k => cases l <;> exact exec_pinSteps_agree h rfl rfl rfl hfull
  | read p m k => exact ⟨_, _, rfl, rfl, h.testPin fun _ hp => nomatch hpast hp⟩
  | isHigh p m k => exact ⟨_, _, rfl, rfl, h.testPin fun _ hp => nomatch hpast hp⟩
  | isLow p m k => exact ⟨_, _, rfl, rfl, h.testPin fun _ hp => nomatch hpast hp⟩
  | isSetHigh p k => exact ⟨_, _, rfl, rfl, h.testPin fun hv _ => h.readValue_stored (hfull p rfl hv) .out⟩
  | isSetLow p k => exact ⟨_, _, rfl, rfl, h.testPin fun hv _ => h.readValue_stored (hfull p rfl hv) .out⟩
  | toggle p k =>
    exact ⟨_, _, rfl, rfl, h.onPin fun hv =>
      (h.readThenWrite (hfull p rfl hv) .out fun v => v ^^^ pinMask k).advance 1⟩
  | base p => exact ⟨_, _, rfl, rfl, h.onPort fun _ => (h.setResult fun _ => by rw [h.config]).advance 1⟩
  | regRead p off =>
    refine ⟨_, _, rfl, rfl, h.onPort fun hv => ?_⟩
    have hvalue : past → s.readValue p off = t.readValue p off := by
      cases off with
      | stored r => exact fun _ => h.readValue_stored (hfull p rfl hv) r
      | input => exact fun hp => nomatch hpast hp
    exact ((h.regRead hvalue).setResult hvalue).advance 1
  | regWrite p r v => exact ⟨_, _, rfl, rfl, h.onPort fun _ => (h.regWrite r v).advance 2⟩
  | regModify p r clr set =>
    exact ⟨_, _, rfl, rfl, h.onPort fun hv => (h.regModify (hfull p rfl hv) r clr set).advance 3⟩
  | dcfgDefault => exact ⟨_, _, rfl, rfl, (h.setFreq (by rw [h.config])).advance 1⟩
  | dcfg hz => exact ⟨_, _, rfl, rfl, (h.setFreq rfl).advance 2⟩
  | delayNs n =>
    exact ⟨_, _, rfl, rfl, h.withEngine fun f => (h.spin (clampCount (cyclesNs n f))).advance 2⟩
  | delayUs n =>
    exact ⟨_, _, rfl, rfl, h.withEngine fun f => (h.spin (clampCount (cyclesUs n f))).advance 2⟩
  | delayMs n => exact ⟨_, _, rfl, rfl, h.withEngine fun f => (h.spinTimes n.toNat _).advance 2⟩
  | _ => exact exec_pinSteps_agree h rfl rfl rfl hfull

end

/-- Settles O58: both states fetch the same command, and it keeps the agreement. -/
theorem stepsKeepAgreementUpToDraws : Obligations.StepsKeepAgreementUpToDraws := by
  intro s s' t hsame hfull hstep
  have h : Agree False s s' := (sameUpToDraws_iff_agree s s').mp hsame
  obtain ⟨hrun, hpc, hdecoded⟩ := step_next hstep
  have hrun' : s'.status = .run := h.status ▸ hrun
  have hpc' : s'.pc < s'.stream.length := h.stream ▸ h.pc ▸ hpc
  have hwords : s'.stream.drop s'.pc = s.stream.drop s.pc := by rw [h.stream, h.pc]
  obtain ⟨why, hdec, rfl⟩ | ⟨i, hdec, -⟩ := hdecoded
  · exact ⟨_, step_of_decode_error hrun' hpc' (hwords ▸ hdec), (sameUpToDraws_iff_agree _ _).mpr (h.refuse why)⟩
  · obtain ⟨u, t', hu, ht', hagree⟩ := exec_agree h i (fun p _ => hfull p) nofun
    rw [step_of_decode_ok hrun hpc hdec, hu] at hstep
    cases hstep
    exact ⟨t', (step_of_decode_ok hrun' hpc' (hwords ▸ hdec)).trans ht', (sameUpToDraws_iff_agree _ _).mpr hagree⟩

/-- Two states that agree but for the inputs go by a command to states that agree, of RESULT and the history too if the
command does not read `IN`. -/
theorem exec_agree_of_withoutInputs {past : Prop} {s s' t t' : State} {i : Instr}
    (hsame : s.withoutInputs = s'.withoutInputs) (hfull : ∀ p, i.port? = some p → s.config.fullPort p = true)
    (hpast : past → readsInput i = false) (ht : exec i s = .next t) (ht' : exec i s' = .next t') : Agree past t t' := by
  have h : Agree past s s' := ((withoutInputs_eq_iff_agree s s').mp hsame).weaken
  obtain ⟨u, u', hu, hu', hagree⟩ := exec_agree h i (fun p hp _ => hfull p hp) hpast
  cases ht.symm.trans hu
  cases ht'.symm.trans hu'
  exact hagree

/-- Settles O55: agreement without the past for every command, and with it for one that does not read `IN`. -/
theorem drawsReachOnlyResultAndHistory : Obligations.DrawsReachOnlyResultAndHistory :=
  fun _ _ t t' _ hsame hfull ht ht' =>
    ⟨(sameUpToDraws_iff_agree t t').mpr (exec_agree_of_withoutInputs hsame hfull nofun ht ht'), fun hreads =>
      (withoutInputs_eq_iff_agree t t').mpr (exec_agree_of_withoutInputs hsame hfull (fun _ => hreads) ht ht')⟩

end Sys2Proof.Proofs
end

section
/-! SUPPORT. The proofs of the statements about REG_MODIFY and about access by address (20_memory.md). -/

namespace Sys2Proof.Proofs

open Sys2Proof Sys2Proof.Machine Sys2Proof.Laws

/-! The masked modify of a command (R84). -/

theorem exec_regModify {p : PortId} {s : State} (hv : s.config.validPort p = true) (r : StoredReg) (clr set : Word) :
    exec (.regModify p r clr set) s = .next (advance 3 (regModify p r clr set s)) :=
  congrArg Host.Outcome.next (onPort_valid hv)

/-- Settles O24: the command is one `Modify`, whose read is `readValue`. -/
theorem regModifyReadsThenWrites : Obligations.RegModifyReadsThenWrites := by
  intro s p r clr set hv
  refine ⟨s.readValue p (.stored r), _, exec_regModify hv r clr set, ?stored, readValue_implemented s p r,
    fun hf => ⟨readValue_full s p r hf, ?inputs⟩, fun q r' hother => ?others, ?events, ?pc, ?result, ?platform, ?delay⟩
  case stored => simp [maskedUpdate]
  case inputs => exact ⟨regModify_samples_full p r clr set s hf, regModify_draws_full p r clr set s hf⟩
  case others => simp [hother]
  case events => simp [maskedUpdate]
  case pc => simp
  case result => simp
  case platform => simp [SamePlatform]
  case delay => simp [SameDelay]

/-! The address of a register on a platform that meets R41. -/

theorem reg_offset_le (off : Reg) : off.offset.toNat ≤ 0x10 := by
  rcases off with (_ | _ | _ | _) | _ <;> decide

theorem reg_offset_injective : Function.Injective Reg.offset := fun a b h =>
  Option.some_injective _ (by rw [← reg_ofOffset_offset a, ← reg_ofOffset_offset b, h])

theorem mem_allRegs (off : Reg) : off ∈ allRegs := by
  rcases off with (_ | _ | _ | _) | _ <;> decide

theorem disjoint_symm : Std.Symm fun a b : PortConfig => a.disjoint b = true :=
  ⟨fun _ _ h => (Bool.or_comm ..).trans h⟩

section
variable {c : Config} {p q : PortId}

theorem validPort_of_mem {e : PortConfig} (he : e ∈ c.ports) : c.validPort e.id = true :=
  List.find?_isSome.mpr ⟨e, he, beq_self_eq_true e.id⟩

theorem validPort_entry (hp : c.validPort p = true) : ∃ e ∈ c.ports, e.id = p ∧ c.baseOf p = e.base := by
  obtain ⟨e, he⟩ := Option.isSome_iff_exists.mp hp
  have hid : e.id = p := by simpa using List.find?_some he
  exact ⟨e, List.mem_of_find?_eq_some he, hid, by rw [Config.baseOf, he]⟩

/-- No register of a valid port lies beyond the address space (R41). -/
theorem wf_base_le (hwf : c.wf = true) (hp : c.validPort p = true) : (c.baseOf p).toNat + 0x10 ≤ 2 ^ 32 - 4 := by
  obtain ⟨e, he, -, hbase⟩ := validPort_entry hp
  simp only [Config.wf, Bool.and_eq_true, List.all_eq_true] at hwf
  obtain ⟨⟨-, haligned⟩, -⟩ := hwf
  have := haligned e he
  simp only [PortConfig.aligned, Bool.and_eq_true, decide_eq_true_eq] at this
  exact hbase ▸ this.2

/-- The register ranges of two valid ports do not meet (R41). -/
theorem wf_ranges_disjoint (hwf : c.wf = true) (hp : c.validPort p = true) (hq : c.validPort q = true) (hne : p ≠ q) :
    (c.baseOf p).toNat + 0x13 < (c.baseOf q).toNat ∨ (c.baseOf q).toNat + 0x13 < (c.baseOf p).toNat := by
  obtain ⟨e, he, rfl, hbase⟩ := validPort_entry hp
  obtain ⟨e', he', rfl, hbase'⟩ := validPort_entry hq
  simp only [Config.wf, Bool.and_eq_true, decide_eq_true_eq] at hwf
  obtain ⟨-, hpairwise⟩ := hwf
  have := disjoint_symm
  have hdisjoint : e.disjoint e' = true := hpairwise.forall he he' fun h => hne (congrArg _ h)
  rw [hbase, hbase']
  simpa [PortConfig.disjoint] using hdisjoint

/-- The sum `Base(p) + off` does not wrap (R41, R42). -/
theorem regAddress_toNat (hwf : c.wf = true) (hp : c.validPort p = true) (off : Reg) :
    (c.regAddress p off).toNat = (c.baseOf p).toNat + off.offset.toNat := by
  have hbase := wf_base_le hwf hp
  have hoff := reg_offset_le off
  simp only [Config.regAddress, BitVec.toNat_add, BitVec.toNat_setWidth]
  omega

/-- An address is the address of one register of one valid port. -/
theorem regAddress_injective (hwf : c.wf = true) (hp : c.validPort p = true) (hq : c.validPort q = true) {off off' : Reg}
    (h : c.regAddress p off = c.regAddress q off') : p = q ∧ off = off' := by
  have hsum : (c.baseOf p).toNat + off.offset.toNat = (c.baseOf q).toNat + off'.offset.toNat := by
    rw [← regAddress_toNat hwf hp, ← regAddress_toNat hwf hq, h]
  have hpq : p = q := by
    by_contra hne
    have hranges := wf_ranges_disjoint hwf hp hq hne
    have hoff := reg_offset_le off
    have hoff' := reg_offset_le off'
    omega
  subst hpq
  exact ⟨rfl, reg_offset_injective (BitVec.eq_of_toNat_eq (Nat.add_left_cancel hsum))⟩

end

/-! What stands at an address. -/

/-- The register found at an address is a valid port's and has that address. -/
theorem registerAt_some {s : State} {addr : Word} {q : PortId} {off : Reg} (h : s.registerAt addr = some (q, off)) :
    s.config.validPort q = true ∧ s.config.regAddress q off = addr := by
  obtain ⟨e, he, hfound⟩ := List.exists_of_findSome?_eq_some h
  obtain ⟨off', hoff', heq⟩ := Option.map_eq_some_iff.mp hfound
  obtain ⟨rfl, rfl⟩ := Prod.mk.inj heq
  exact ⟨validPort_of_mem he, by simpa using List.find?_some hoff'⟩

/-- At the address of a valid port's register a register is found. -/
theorem registerAt_isSome {s : State} {p : PortId} (hp : s.config.validPort p = true) (off : Reg) :
    (s.registerAt (s.config.regAddress p off)).isSome = true := by
  obtain ⟨e, he, rfl, -⟩ := validPort_entry hp
  refine List.findSome?_isSome_iff.mpr ⟨e, he, ?_⟩
  rw [Option.isSome_map]
  exact List.find?_isSome.mpr ⟨off, mem_allRegs off, beq_self_eq_true _⟩

theorem registerAt_regAddress {s : State} {p : PortId} (hwf : s.config.wf = true) (hp : s.config.validPort p = true)
    (off : Reg) : s.registerAt (s.config.regAddress p off) = some (p, off) := by
  obtain ⟨⟨q, off'⟩, hfound⟩ := Option.isSome_iff_exists.mp (registerAt_isSome hp off)
  obtain ⟨hq, haddr⟩ := registerAt_some hfound
  obtain ⟨rfl, rfl⟩ := regAddress_injective hwf hq hp haddr
  exact hfound

/-- Settles O26: no sum wraps, so the ranges of R41 keep the addresses apart, and the register found at an address is the
one whose address it is. -/
theorem addressAccessIsRegisterAccess : Obligations.AddressAccessIsRegisterAccess := by
  intro s p hwf hp
  refine ⟨regAddress_toNat hwf hp, fun off => ?_, fun r v => ?_⟩
  · rw [memRead, registerAt_regAddress hwf hp, Option.map_some]
  · rw [memWrite, registerAt_regAddress hwf hp]

end Sys2Proof.Proofs
end

section
/-! SUPPORT. The answers of decode, check by check, and the proofs of the statements about the encoding (30_encoding.md). -/

namespace Sys2Proof.Proofs

open Sys2Proof Sys2Proof.Machine Sys2Proof.Laws

/-! The fields of a first word. -/

theorem packFields_and (op op' : BitVec 8) (port port' : PortId) (off off' : BitVec 8) (mode mode' : BitVec 2)
    (lv lv' : BitVec 1) (pin pin' : PinIdx) :
    packFields op port off mode lv pin &&& packFields op' port' off' mode' lv' pin' =
      packFields (op &&& op') (port &&& port') (off &&& off') (mode &&& mode') (lv &&& lv') (pin &&& pin') := by
  unfold packFields
  iterate 5 erw [BitVec.and_append]

/-- The must-be-zero column of R64 in fields of the first word. -/
def ReservedZero (o : Opcode) (w : Word) : Prop :=
  match o with
  | .mkInput | .mkInputPu | .mkOutput | .mkOutputOd => fieldOff w = 0 ∧ fieldMode w = 0 ∧ fieldLv w = 0
  | .intoInput | .intoInputPu | .intoOutput | .intoOutputOd => fieldOff w = 0 ∧ fieldLv w = 0
  | .read | .isHigh | .isLow | .setHigh | .setLow | .toggle | .isSetHigh | .isSetLow => fieldOff w = 0 ∧ fieldLv w = 0
  | .setState => fieldOff w = 0
  | .base => fieldOff w = 0 ∧ fieldMode w = 0 ∧ fieldLv w = 0 ∧ fieldPin w = 0
  | .regRead | .regWrite | .regModify => fieldMode w = 0 ∧ fieldLv w = 0 ∧ fieldPin w = 0
  | .dcfgDefault | .dcfg | .delayNs | .delayUs | .delayMs =>
    fieldPort w = 0 ∧ fieldOff w = 0 ∧ fieldMode w = 0 ∧ fieldLv w = 0 ∧ fieldPin w = 0

theorem and_mustBeZero_iff (o : Opcode) (w : Word) : w &&& o.mustBeZero = 0 ↔ ReservedZero o w := by
  rw [← packFields_fields w]
  cases o with
  | mkInput | mkInputPu | mkOutput | mkOutputOd => simpa [ReservedZero, Opcode.mustBeZero] using pack_and_FFE0 ..
  | setState => simpa [ReservedZero, Opcode.mustBeZero] using pack_and_FF00 ..
  | base => simpa [ReservedZero, Opcode.mustBeZero] using pack_and_FFFF ..
  | regRead | regWrite | regModify => simpa [ReservedZero, Opcode.mustBeZero] using pack_and_00FF ..
  | dcfgDefault | dcfg | delayNs | delayUs | delayMs => simpa [ReservedZero, Opcode.mustBeZero] using pack_and_FFFFFF ..
  | _ => simpa [ReservedZero, Opcode.mustBeZero] using pack_and_FF20 ..

theorem mode_ofCode_eq_iff (c : BitVec 2) (m : Mode) : Mode.ofCode c = m ↔ c = m.code :=
  ⟨fun h => h ▸ (mode_code_ofCode c).symm, fun h => h ▸ mode_ofCode_code m⟩

/-! What an opcode builds from its words. -/

theorem someOrRefuse_ok {α : Type} {x : Option α} {why : RefusalReason} {f : α → Instr} {i : Instr} :
    someOrRefuse x why f = .ok i ↔ ∃ a, x = some a ∧ f a = i := by
  cases x <;> simp [someOrRefuse]

theorem someOrRefuse_error {α : Type} {x : Option α} {why why' : RefusalReason} {f : α → Instr} :
    someOrRefuse x why f = .error why' ↔ x = none ∧ why = why' := by
  cases x <;> simp [someOrRefuse]

theorem orRefuse_ok {b : Bool} {why : RefusalReason} {i i' : Instr} : orRefuse b why i = .ok i' ↔ b = true ∧ i = i' := by
  cases b <;> simp [orRefuse]

theorem orRefuse_error {b : Bool} {why why' : RefusalReason} {i : Instr} :
    orRefuse b why i = .error why' ↔ b = false ∧ why = why' := by
  cases b <;> simp [orRefuse]

theorem transitionTo_eq_none {target source : Mode} {port : PortId} {pin : PinIdx} :
    transitionTo target source port pin = none ↔ source = target := by
  cases target <;> cases source <;> simp [transitionTo]

theorem build_sameMode_iff (o : Opcode) (w0 w1 w2 : Word) : o.build w0 w1 w2 = .error .sameModeTransition ↔
    (o = .intoInput ∧ fieldMode w0 = 0b00) ∨ (o = .intoInputPu ∧ fieldMode w0 = 0b01) ∨
      (o = .intoOutput ∧ fieldMode w0 = 0b10) ∨ (o = .intoOutputOd ∧ fieldMode w0 = 0b11) := by
  cases o with
  | intoInput | intoInputPu | intoOutput | intoOutputOd =>
    simp [Opcode.build, someOrRefuse_error, transitionTo_eq_none, mode_ofCode_eq_iff, Mode.code]
  | _ => simp [Opcode.build, someOrRefuse_error, orRefuse_error]

/-- The pin I/O opcodes refuse the modes R64 does not allow (R67, C1). -/
theorem ioMode_ofCode_eq_false_iff (o : Opcode) : ∀ c : BitVec 2, ioMode o (Mode.ofCode c) = false ↔
    (o.code ∈ [0x10, 0x11, 0x12] ∧ c ∈ [0b10, 0b11]) ∨ (o.code ∈ [0x18, 0x19, 0x1A] ∧ c ∈ [0b00, 0b01]) ∨
      (o.code ∈ [0x1B, 0x1C, 0x1D] ∧ c ∈ [0b00, 0b01, 0b11]) := by
  cases o <;> decide

theorem build_mode_iff (o : Opcode) (w0 w1 w2 : Word) : o.build w0 w1 w2 = .error .modeNotPermitted ↔
    ioMode o (Mode.ofCode (fieldMode w0)) = false := by
  cases o <;> simp [Opcode.build, someOrRefuse_error, orRefuse_error] <;> rfl

/-- The offsets R68 does not admit. -/
theorem storedReg_ofOffset_eq_none_iff (c : BitVec 8) : StoredReg.ofOffset c = none ↔ c ∉ [0x00, 0x04, 0x0C, 0x10] := by
  revert c; decide

theorem reg_ofOffset_eq_none_iff (c : BitVec 8) : Reg.ofOffset c = none ↔ c ∉ [0x00, 0x04, 0x08, 0x0C, 0x10] := by
  revert c; decide

theorem build_offset_iff (o : Opcode) (w0 w1 w2 : Word) : o.build w0 w1 w2 = .error .illegalOffset ↔
    (o = .regRead ∧ fieldOff w0 ∉ [0x00, 0x04, 0x08, 0x0C, 0x10]) ∨
      ((o = .regWrite ∨ o = .regModify) ∧ fieldOff w0 ∉ [0x00, 0x04, 0x0C, 0x10]) := by
  cases o with
  | regRead => simp [Opcode.build, someOrRefuse_error, reg_ofOffset_eq_none_iff]
  | regWrite | regModify => simp [Opcode.build, someOrRefuse_error, storedReg_ofOffset_eq_none_iff]
  | _ => simp [Opcode.build, someOrRefuse_error, orRefuse_error]

theorem build_error_reason {o : Opcode} {w0 w1 w2 : Word} {why : RefusalReason} (h : o.build w0 w1 w2 = .error why) :
    why = .sameModeTransition ∨ why = .modeNotPermitted ∨ why = .illegalOffset := by
  cases o with
  | intoInput | intoInputPu | intoOutput | intoOutputOd => exact .inl (someOrRefuse_error.mp h).2.symm
  | read | isHigh | isLow | setHigh | setLow | setState | toggle | isSetHigh | isSetLow =>
    exact .inr (.inl (orRefuse_error.mp h).2.symm)
  | regRead | regWrite | regModify => exact .inr (.inr (someOrRefuse_error.mp h).2.symm)
  | _ => cases h

/-! What decode answers, check by check (R164). -/

section
variable {w0 : Word} {o : Opcode} {rest : List Word} {why : RefusalReason}

theorem decode_of_op (hop : fieldOp w0 = o.code) (rest : List Word) : decode (w0 :: rest) =
    if rest.length + 1 < o.len then .error .truncated
    else if w0 &&& o.mustBeZero ≠ 0 then .error .reservedFieldNonzero
    else o.build w0 (rest.getD 0 0) (rest.getD 1 0) := by
  rw [decode_cons, hop, opcode_ofCode_code]

theorem decode_unassigned (hop : Opcode.ofCode (fieldOp w0) = none) (rest : List Word) :
    decode (w0 :: rest) = .error .illegalOpcode := by
  rw [decode_cons, hop]

/-- No check after that of the opcode answers IllegalOpcode. -/
theorem decode_ne_illegalOpcode (hop : fieldOp w0 = o.code) (rest : List Word) :
    decode (w0 :: rest) ≠ .error .illegalOpcode := by
  rw [decode_of_op hop]
  split_ifs
  · simp
  · simp
  · exact fun h => by simpa using build_error_reason h

theorem decode_truncated_iff (hop : fieldOp w0 = o.code) :
    decode (w0 :: rest) = .error .truncated ↔ rest.length + 1 < o.len := by
  rw [decode_of_op hop]
  split_ifs with hlen hzero
  · simp [hlen]
  · simp [hlen]
  · exact iff_of_false (fun h => by simpa using build_error_reason h) hlen

theorem decode_reserved_iff (hop : fieldOp w0 = o.code) :
    decode (w0 :: rest) = .error .reservedFieldNonzero ↔ o.len ≤ rest.length + 1 ∧ ¬ ReservedZero o w0 := by
  rw [decode_of_op hop, ← and_mustBeZero_iff, ← not_lt]
  split_ifs with hlen hzero
  · simp [hlen]
  · exact iff_of_true rfl ⟨hlen, hzero⟩
  · exact iff_of_false (fun h => by simpa using build_error_reason h) fun h => hzero h.2

/-- The answers of the last checks. -/
theorem decode_build_iff (hop : fieldOp w0 = o.code) {x : Except RefusalReason Instr}
    (hx : x ∉ [.error .truncated, .error .reservedFieldNonzero]) : decode (w0 :: rest) = x ↔
      o.len ≤ rest.length + 1 ∧ ReservedZero o w0 ∧ o.build w0 (rest.getD 0 0) (rest.getD 1 0) = x := by
  obtain ⟨htruncated, hreserved⟩ : x ≠ .error .truncated ∧ x ≠ .error .reservedFieldNonzero := by simpa using hx
  rw [decode_of_op hop, ← and_mustBeZero_iff, ← not_lt]
  split_ifs with hlen hzero
  · exact iff_of_false htruncated.symm fun h => h.1 hlen
  · exact iff_of_false hreserved.symm fun h => hzero h.2.1
  · simp only [hlen, not_not.mp hzero, not_false_iff, true_and]

/-- A refusal but IllegalOpcode is what it is for each opcode, and no answer to an unassigned one. -/
theorem decode_error_iff {Q : Prop} (hwhy : why ≠ .illegalOpcode)
    (hunassigned : fieldOp w0 ∉ Opcode.all.map Opcode.code → ¬ Q)
    (h : ∀ o : Opcode, fieldOp w0 = o.code → (decode (w0 :: rest) = .error why ↔ Q)) :
    decode (w0 :: rest) = .error why ↔ Q := by
  cases hop : Opcode.ofCode (fieldOp w0) with
  | some o => exact h o (opcode_code_of_ofCode hop).symm
  | none =>
    rw [decode_unassigned hop]
    refine iff_of_false (fun he => hwhy (Except.error.inj he).symm) (hunassigned fun hmem => ?_)
    obtain ⟨o, -, ho⟩ := List.mem_map.mp hmem
    simp [← ho] at hop

end

/-! The statements about refusals. -/

/-- The codes R64 leaves unassigned are those R69 lists. -/
theorem ofCode_eq_none_iff : ∀ c : BitVec 8, Opcode.ofCode c = none ↔
    (c.toNat = 0x00 ∨ (0x09 ≤ c.toNat ∧ c.toNat ≤ 0x0F) ∨ (0x13 ≤ c.toNat ∧ c.toNat ≤ 0x17) ∨
      (0x1E ≤ c.toNat ∧ c.toNat ≤ 0x1F) ∨ (0x24 ≤ c.toNat ∧ c.toNat ≤ 0x2F) ∨ 0x35 ≤ c.toNat) := by
  decide

/-- Settles O5: only the first check answers IllegalOpcode, and it does so for every unassigned code. -/
theorem unassignedOpcodesAreIllegal : Obligations.UnassignedOpcodesAreIllegal := by
  intro w0 rest
  rw [← ofCode_eq_none_iff]
  cases hop : Opcode.ofCode (fieldOp w0) with
  | none => simp [decode_unassigned hop]
  | some o => simpa using decode_ne_illegalOpcode (opcode_code_of_ofCode hop).symm rest

/-- Settles O6: for each opcode, its length. -/
theorem shortStreamsAreTruncated : Obligations.ShortStreamsAreTruncated := by
  intro w0 rest
  refine decode_error_iff nofun (fun h => ?_) fun o hop => ?_
  · simp_all [Opcode.all, Opcode.code]
  · rw [decode_truncated_iff hop, hop]
    cases o with
    | regModify => simp [Opcode.len, Opcode.code]; omega
    | _ => simp [Opcode.len, Opcode.code]

/-- Settles O7: for each opcode, its length and its must-be-zero fields. -/
theorem nonzeroReservedFieldsAreRefused : Obligations.NonzeroReservedFieldsAreRefused := by
  intro w0 rest
  refine decode_error_iff nofun (fun h => ?_) fun o hop => ?_
  · simp_all [Opcode.all, Opcode.code]
  · rw [decode_reserved_iff hop, hop]
    cases o <;> simp [Opcode.len, Opcode.code, ReservedZero]

/-- Settles O8: the four transition opcodes, each with its own target. -/
theorem sameModeTransitionsAreRefused : Obligations.SameModeTransitionsAreRefused := by
  intro w0 rest
  refine decode_error_iff nofun (fun h => ?_) fun o hop => ?_
  · simp_all [Opcode.all, Opcode.code]
  · rw [decode_build_iff hop (by simp), build_sameMode_iff, hop]
    cases o <;> simp [Opcode.len, Opcode.code, ReservedZero, and_assoc]

/-- Settles O9: for each opcode, the modes it does not allow. -/
theorem wrongPinModesAreRefused : Obligations.WrongPinModesAreRefused := by
  intro w0 rest
  refine decode_error_iff nofun (fun h => ?_) fun o hop => ?_
  · simp_all [Opcode.all, Opcode.code]
  · rw [decode_build_iff hop (by simp), build_mode_iff, ioMode_ofCode_eq_false_iff, hop]
    cases o <;> simp [Opcode.len, Opcode.code, ReservedZero, and_assoc]

/-- Settles O10: for each register opcode, the offsets that name no register. -/
theorem illegalOffsetsAreRefused : Obligations.IllegalOffsetsAreRefused := by
  intro w0 rest
  refine decode_error_iff nofun (fun h => ?_) fun o hop => ?_
  · simp_all [Opcode.all, Opcode.code]
  · rw [decode_build_iff hop (by simp), build_offset_iff, hop]
    cases o <;> simp [Opcode.len, Opcode.code, ReservedZero, and_assoc, and_left_comm]

/-! Decoding what is encoded, and encoding what is decoded. -/

theorem ioMode_input (m : Mode) : (m == .input || m == .inputPullUp) = m.inputCapable := by cases m <;> rfl

theorem ioMode_output (m : Mode) : (m == .output || m == .outputOpenDrain) = m.outputCapable := by cases m <;> rfl

/-- The words of a command, under its opcode, build the command. -/
theorem build_encode {i : Instr} (hwf : i.wf = true) {w0 : Word} {tail : List Word} (h : encode i = w0 :: tail)
    (rest : List Word) : i.opcode.build w0 ((tail ++ rest).getD 0 0) ((tail ++ rest).getD 1 0) = .ok i := by
  cases i with
  | mkInput | mkInputPu | mkOutput | mkOutputOd => cases h; simp [Opcode.build, Instr.opcode, pinWord]
  | base | dcfgDefault | dcfg | delayNs | delayUs | delayMs => cases h; simp [Opcode.build, Instr.opcode, regWord]
  | regRead | regWrite | regModify => cases h; simp [Opcode.build, Instr.opcode, regWord, someOrRefuse_ok]
  | read | isHigh | isLow =>
    cases h; simpa [Opcode.build, Instr.opcode, pinWord, orRefuse_ok, ioMode, ioMode_input, Instr.wf] using hwf
  | setHigh | setLow | setState =>
    cases h; simpa [Opcode.build, Instr.opcode, pinWord, orRefuse_ok, ioMode, ioMode_output, Instr.wf] using hwf
  | toggle | isSetHigh | isSetLow => cases h; simp [Opcode.build, Instr.opcode, pinWord, orRefuse_ok, ioMode]
  | _ => cases h; simp [Opcode.build, Instr.opcode, pinWord, someOrRefuse_ok, transitionTo]

/-- The first word of every command has its opcode's code and zero reserved fields, and all words of its length follow. -/
theorem encodes (i : Instr) : Encodes.Statement i := by
  cases i
  exacts [Encodes.mkInput .., Encodes.mkInputPu .., Encodes.mkOutput .., Encodes.mkOutputOd ..,
    Encodes.intoInputFromIpu .., Encodes.intoInputFromOut .., Encodes.intoInputFromOod ..,
    Encodes.intoInputPuFromIn .., Encodes.intoInputPuFromOut .., Encodes.intoInputPuFromOod ..,
    Encodes.intoOutputFromIn .., Encodes.intoOutputFromIpu .., Encodes.intoOutputFromOod ..,
    Encodes.intoOutputOdFromIn .., Encodes.intoOutputOdFromIpu .., Encodes.intoOutputOdFromOut ..,
    Encodes.read .., Encodes.isHigh .., Encodes.isLow .., Encodes.setHigh .., Encodes.setLow .., Encodes.setState ..,
    Encodes.toggle .., Encodes.isSetHigh .., Encodes.isSetLow .., Encodes.base .., Encodes.regRead ..,
    Encodes.regWrite .., Encodes.regModify .., Encodes.dcfgDefault, Encodes.dcfg .., Encodes.delayNs ..,
    Encodes.delayUs .., Encodes.delayMs ..]

/-- Whatever follows the words of a well-formed command, they decode to it. -/
theorem decode_encode {i : Instr} (hwf : i.wf = true) (rest : List Word) : decode (encode i ++ rest) = .ok i := by
  obtain ⟨w0, tail, hencode, hlen, hop, hzero⟩ := encodes i
  rw [hencode, List.cons_append, decode_build_iff hop (by simp)]
  refine ⟨?_, (and_mustBeZero_iff _ w0).mp hzero, build_encode hwf hencode rest⟩
  rw [List.length_append]
  omega

/-- Settles O1: no check of decode refuses the words, and the opcode builds the command from them. -/
theorem decodeOfEncodeIsTheCommand : Obligations.DecodeOfEncodeIsTheCommand :=
  fun _ rest hwf => decode_encode hwf rest

/-! A first word is packed from its fields. -/

theorem pinWord_fields {o : Opcode} {w : Word} {mode : Mode} {lv : Level} (hop : fieldOp w = o.code)
    (hoff : fieldOff w = 0) (hmode : fieldMode w = mode.code) (hlv : fieldLv w = lv.code) :
    pinWord o (fieldPort w) mode lv (fieldPin w) = w := by
  rw [pinWord, ← hop, ← hoff, ← hmode, ← hlv, packFields_fields]

theorem regWord_fields {o : Opcode} {w : Word} {off : BitVec 8} (hop : fieldOp w = o.code) (hoff : fieldOff w = off)
    (hmode : fieldMode w = 0) (hlv : fieldLv w = 0) (hpin : fieldPin w = 0) : regWord o (fieldPort w) off = w := by
  rw [regWord, ← hop, ← hoff]
  conv_rhs => rw [← packFields_fields w, hmode, hlv, hpin]

theorem delayWord_fields {o : Opcode} {w : Word} (hop : fieldOp w = o.code) (hzero : ReservedZero .dcfgDefault w) :
    delayWord o = w := by
  obtain ⟨hport, hoff, hmode, hlv, hpin⟩ := hzero
  rw [delayWord, ← hop]
  conv_rhs => rw [← packFields_fields w, hport, hoff, hmode, hlv, hpin]

theorem transitionTo_encode {target source : Mode} {port : PortId} {pin : PinIdx} {i : Instr}
    (h : transitionTo target source port pin = some i) :
    i.wf = true ∧ encode i = [pinWord i.opcode port source .low pin] := by
  cases target <;> cases source <;> cases h <;> exact ⟨rfl, rfl⟩

theorem mode_code_of_eq {c : BitVec 2} {m : Mode} (h : (Mode.ofCode c == m) = true) : c = m.code :=
  (mode_ofCode_eq_iff c m).mp (beq_iff_eq.mp h)

/-- A command that an opcode builds is well-formed, and its words are those it was built from. -/
theorem build_ok {o : Opcode} {w0 w1 w2 : Word} {i : Instr} (h : o.build w0 w1 w2 = .ok i) (hop : fieldOp w0 = o.code)
    (hzero : ReservedZero o w0) : i.wf = true ∧ encode i = w0 :: [w1, w2].take (o.len - 1) := by
  have hmode : fieldMode w0 = (Mode.ofCode (fieldMode w0)).code := (mode_code_ofCode _).symm
  cases o with
  | mkInput | mkInputPu | mkOutput | mkOutputOd =>
    cases h
    obtain ⟨hoff, hmode, hlv⟩ := hzero
    exact ⟨rfl, congrArg (· :: []) (pinWord_fields hop hoff hmode hlv)⟩
  | intoInput | intoInputPu | intoOutput | intoOutputOd =>
    obtain ⟨hoff, hlv⟩ := hzero
    obtain ⟨i', htransition, rfl : i' = i⟩ := someOrRefuse_ok.mp h
    obtain ⟨hwf, hencode⟩ := transitionTo_encode htransition
    exact ⟨hwf, hencode.trans (congrArg (· :: []) (pinWord_fields (build_opcode h ▸ hop) hoff hmode hlv))⟩
  | read | isHigh | isLow =>
    obtain ⟨hoff, hlv⟩ := hzero
    obtain ⟨hio, rfl⟩ := orRefuse_ok.mp h
    exact ⟨(ioMode_input _).symm.trans hio, congrArg (· :: []) (pinWord_fields hop hoff hmode hlv)⟩
  | setHigh | setLow =>
    obtain ⟨hoff, hlv⟩ := hzero
    obtain ⟨hio, rfl⟩ := orRefuse_ok.mp h
    exact ⟨(ioMode_output _).symm.trans hio, congrArg (· :: []) (pinWord_fields hop hoff hmode hlv)⟩
  | setState =>
    obtain ⟨hio, rfl⟩ := orRefuse_ok.mp h
    exact ⟨(ioMode_output _).symm.trans hio,
      congrArg (· :: []) (pinWord_fields hop hzero hmode (level_code_ofCode _).symm)⟩
  | toggle | isSetHigh | isSetLow =>
    obtain ⟨hoff, hlv⟩ := hzero
    obtain ⟨hio, rfl⟩ := orRefuse_ok.mp h
    exact ⟨rfl, congrArg (· :: []) (pinWord_fields hop hoff (mode_code_of_eq hio) hlv)⟩
  | base =>
    cases h
    obtain ⟨hoff, hmode, hlv, hpin⟩ := hzero
    exact ⟨rfl, congrArg (· :: []) (regWord_fields hop hoff hmode hlv hpin)⟩
  | regRead =>
    obtain ⟨hmode, hlv, hpin⟩ := hzero
    obtain ⟨r, hr, rfl⟩ := someOrRefuse_ok.mp h
    exact ⟨rfl, congrArg (· :: _) (regWord_fields hop (reg_offset_of_ofOffset hr).symm hmode hlv hpin)⟩
  | regWrite | regModify =>
    obtain ⟨hmode, hlv, hpin⟩ := hzero
    obtain ⟨r, hr, rfl⟩ := someOrRefuse_ok.mp h
    exact ⟨rfl, congrArg (· :: _) (regWord_fields hop (storedReg_offset_of_ofOffset hr).symm hmode hlv hpin)⟩
  | dcfgDefault | dcfg | delayNs | delayUs | delayMs =>
    cases h
    exact ⟨rfl, congrArg (· :: _) (delayWord_fields hop hzero)⟩

/-- The two words decode hands to an opcode, cut to its length, are the words that follow. -/
theorem take_getD_pair {rest : List Word} {n : Nat} (hn : n ≤ rest.length) (h2 : n ≤ 2) :
    [rest.getD 0 0, rest.getD 1 0].take n = rest.take n := by
  match rest with
  | [] => obtain rfl : n = 0 := Nat.le_zero.mp hn; rfl
  | [_] => have : n ≤ 1 := hn; interval_cases n <;> rfl
  | _ :: _ :: _ => interval_cases n <;> rfl

theorem opcode_len_le (o : Opcode) : o.len ≤ 3 := by cases o <;> decide

/-- A stream that decodes begins with the encoding of its well-formed command. -/
theorem decode_ok_encode {ws : List Word} {i : Instr} (h : decode ws = .ok i) :
    i.wf = true ∧ ∃ rest, ws = encode i ++ rest := by
  cases ws with
  | nil => cases h
  | cons w0 rest =>
    have hop := (decode_ok h).1
    obtain ⟨hlen, hzero, hbuild⟩ := (decode_build_iff hop (by simp)).mp h
    obtain ⟨hwf, hencode⟩ := build_ok hbuild hop hzero
    have hle := opcode_len_le i.opcode
    refine ⟨hwf, rest.drop (i.opcode.len - 1), ?_⟩
    rw [hencode, take_getD_pair (by omega) (by omega), List.cons_append, List.take_append_drop]

/-- Settles O2: the opcode's build, its must-be-zero fields and its code fix every bit of the words it read. -/
theorem decodedWordsAreTheEncoding : Obligations.DecodedWordsAreTheEncoding :=
  fun _ _ => decode_ok_encode

/-- Settles O3: the thirteen streams are decoded. -/
theorem specExampleWordsDecode : Obligations.SpecExampleWordsDecode := by
  unfold Obligations.SpecExampleWordsDecode
  decide

/-! The rows of the opcode table. -/

/-- The fields that the rows of an opcode fix, as a mask. -/
def rowMask : Opcode → Word
  | .mkInput | .mkInputPu | .mkOutput | .mkOutputOd => packFields 0xFF 0 0xFF 0b11 1 0
  | .intoInput | .intoInputPu | .intoOutput | .intoOutputOd => packFields 0xFF 0 0xFF 0b11 1 0
  | .read | .isHigh | .isLow | .setHigh | .setLow => packFields 0xFF 0 0xFF 0b10 1 0
  | .setState => packFields 0xFF 0 0xFF 0b10 0 0
  | .toggle | .isSetHigh | .isSetLow => packFields 0xFF 0 0xFF 0b11 1 0
  | .base => packFields 0xFF 0 0xFF 0b11 1 0x1F
  | .regRead | .regWrite | .regModify => packFields 0xFF 0 0 0b11 1 0x1F
  | .dcfgDefault | .dcfg | .delayNs | .delayUs | .delayMs => packFields 0xFF 0xFF 0xFF 0b11 1 0x1F

/-- The masked first word of a command is the value of one of its opcode's rows: no operand stands under the mask. -/
theorem row_mem {i : Instr} (hwf : i.wf = true) {w0 : Word} {tail : List Word} (h : encode i = w0 :: tail) :
    ⟨rowMask i.opcode, w0 &&& rowMask i.opcode⟩ ∈ opcodeRows := by
  cases i with
  | read _ mode | isHigh _ mode | isLow _ mode =>
    cases h
    simp only [Instr.opcode, rowMask, pinWord, packFields_and, BitVec.ofNat_eq_ofNat, BitVec.and_zero]
    cases mode with
    | input | inputPullUp => decide
    | output | outputOpenDrain => cases hwf
  | setHigh _ mode | setLow _ mode | setState _ mode =>
    cases h
    simp only [Instr.opcode, rowMask, pinWord, packFields_and, BitVec.ofNat_eq_ofNat, BitVec.and_zero]
    cases mode with
    | input | inputPullUp => cases hwf
    | output | outputOpenDrain => decide
  | base | regRead | regWrite | regModify =>
    cases h
    simp only [Instr.opcode, rowMask, regWord, packFields_and, BitVec.ofNat_eq_ofNat, BitVec.and_zero]
    decide
  | dcfgDefault | dcfg | delayNs | delayUs | delayMs =>
    cases h
    simp only [Instr.opcode]
    decide
  | _ =>
    cases h
    simp only [Instr.opcode, rowMask, pinWord, packFields_and, BitVec.ofNat_eq_ofNat, BitVec.and_zero]
    decide

/-- Where the fixed bits of two rows meet, different rows differ. -/
theorem rows_conflict : ∀ a ∈ opcodeRows, ∀ b ∈ opcodeRows, a.value &&& b.mask = b.value &&& a.mask → a = b := by
  decide

/-- Settles O4: the masked first word of a command is a row's value, and no word meets the fixed bits of two rows. -/
theorem opcodeRowsCoverAndDoNotOverlap : Obligations.OpcodeRowsCoverAndDoNotOverlap := by
  refine ⟨fun w0 rest i h => ?_, fun w0 a b ha hb hwa hwb => rows_conflict a ha b hb ?_⟩
  · obtain ⟨hwf, rest', hwords⟩ := decode_ok_encode h
    obtain ⟨w, tail, hencode, -⟩ := encodes i
    rw [hencode, List.cons_append] at hwords
    obtain ⟨rfl, -⟩ := List.cons.inj hwords
    exact ⟨_, row_mem hwf hencode, beq_self_eq_true _⟩
  · have hva : w0 &&& a.mask = a.value := beq_iff_eq.mp hwa
    have hvb : w0 &&& b.mask = b.value := beq_iff_eq.mp hwb
    rw [← hva, ← hvb, BitVec.and_assoc, BitVec.and_assoc, BitVec.and_comm a.mask]

end Sys2Proof.Proofs
end

section
/-! SUPPORT. What a well-typed program assembles to and how it runs, and the proofs of the statements about the assembly
language and its commands (30_encoding.md, R72 to R75). -/

namespace Sys2Proof.Proofs

open Sys2Proof Sys2Proof.Machine Sys2Proof.Laws

/-- Settles O39: the tests of `READ` and `IS_HIGH` are one test, and `SET_STATE` is the base command's own steps. -/
theorem derivedPinCommandsEqualTheirBase : Obligations.DerivedPinCommandsEqualTheirBase := by
  intro s p m m' k
  have htest : (fun l => l == .high) = levelToBool := funext fun l => (levelToBool_eq l).symm
  refine ⟨?_, rfl, rfl⟩
  simp only [exec, execIsHigh, execRead, htest]

/-- Settles O18: what decode refuses is recorded, and every command answers a next state. -/
theorem runningStepAnswersNext : Obligations.RunningStepAnswersNext := by
  intro s hrun hpc
  cases hdec : decode (s.stream.drop s.pc) with
  | error why => exact ⟨_, step_of_decode_error hrun hpc hdec⟩
  | ok i =>
    obtain ⟨t, ht, -⟩ := exec_ends i s
    exact ⟨t, (step_of_decode_ok hrun hpc hdec).trans ht⟩

/-! What the checks let through. -/

/-- What the checks of R73 give for the command of a statement, from the context before it and the one after: the command
is well-formed (WT3, WT4, WT6), and it constructs an engine or, if it is a delay, has one before it (WT5). -/
structure WellTyped (c c' : AsmContext) (i : Instr) : Prop where
  wf : i.wf = true
  engine : c'.engine = c.engine ∧ (i.port? = none → c.engine = true) ∨ i = .dcfgDefault ∨ ∃ hz, i = .dcfg hz

theorem WellTyped.of_port {c c' : AsmContext} {i : Instr} {p : PortId} (hwf : i.wf = true) (hengine : c'.engine = c.engine)
    (hp : i.port? = some p) : WellTyped c c' i :=
  ⟨hwf, .inl ⟨hengine, fun hnone => nomatch hp.symm.trans hnone⟩⟩

theorem define_engine {c c' : AsmContext} {h : Handle} {ph : PinHandle} (hdef : c.define h ph = .ok c') :
    c'.engine = c.engine := by
  unfold AsmContext.define at hdef
  split at hdef
  · cases hdef
  · cases hdef; rfl

theorem constructorInstr_wf_port (mode : Mode) (port : PortId) (pin : PinIdx) :
    (constructorInstr mode port pin).wf = true ∧ (constructorInstr mode port pin).port? = some port := by
  cases mode <;> exact ⟨rfl, rfl⟩

theorem transitionTo_port {target source : Mode} {port : PortId} {pin : PinIdx} {i : Instr}
    (h : transitionTo target source port pin = some i) : i.port? = some port := by
  cases target <;> cases source <;> cases h <;> rfl

/-- WT3: a pin statement's command is in the mode set of R64. -/
theorem pinOp_instr_wf_port {op : PinOp} {ph : PinHandle} (h : ioMode op.opcode ph.mode = true) :
    (op.instr ph).wf = true ∧ (op.instr ph).port? = some ph.port := by
  cases op with
  | read | isHigh | isLow => exact ⟨(ioMode_input _).symm.trans h, rfl⟩
  | setHigh | setLow => exact ⟨(ioMode_output _).symm.trans h, rfl⟩
  | toggle | isSetHigh | isSetLow => exact ⟨rfl, rfl⟩

/-- Every statement the checks let through gives such a command. -/
theorem checkStmt_ok {c c' : AsmContext} {st : Stmt} {i : Instr} (h : checkStmt c st = .ok (c', i)) :
    WellTyped c c' i := by
  cases st with
  | construct name mode port pin =>
    simp only [checkStmt] at h
    split at h <;> cases h
    obtain ⟨hwf, hp⟩ := constructorInstr_wf_port mode port pin
    exact .of_port hwf (define_engine ‹_›) hp
  | into new target old =>
    simp only [checkStmt] at h
    split at h
    · cases h
    split at h
    · cases h
    rename_i htransition
    split at h <;> cases h
    exact .of_port (transitionTo_encode htransition).1 (define_engine (c := c.consume old) ‹_›)
      (transitionTo_port htransition)
  | pinOp op name =>
    simp only [checkStmt] at h
    split at h
    · cases h
    split at h <;> cases h
    obtain ⟨hwf, hp⟩ := pinOp_instr_wf_port ‹_›
    exact .of_port hwf rfl hp
  | setState name level =>
    simp only [checkStmt] at h
    split at h
    · cases h
    split at h <;> cases h
    rename_i hio
    exact .of_port ((ioMode_output _).symm.trans hio) rfl rfl
  | base port => cases h; exact .of_port rfl rfl rfl
  | regRead | regWrite | regModify =>
    simp only [checkStmt] at h
    split at h <;> cases h
    exact .of_port rfl rfl rfl
  | delayDefault => cases h; exact ⟨rfl, .inr (.inl rfl)⟩
  | delayNew hz => cases h; exact ⟨rfl, .inr (.inr ⟨hz, rfl⟩)⟩
  | delay u n =>
    simp only [checkStmt] at h
    split at h <;> cases h
    rename_i hengine
    exact ⟨by cases u <;> rfl, .inl ⟨rfl, fun _ => hengine⟩⟩

theorem checkProgram_cons {c : AsmContext} {line : Nat} {st : Stmt} {program : List (Nat × Stmt)} {is : List Instr}
    (h : checkProgram c ((line, st) :: program) = .ok is) :
    ∃ c' i is', WellTyped c c' i ∧ checkProgram c' program = .ok is' ∧ is = i :: is' := by
  simp only [checkProgram] at h
  split at h
  · cases h
  split at h <;> cases h
  exact ⟨_, _, _, checkStmt_ok ‹_›, ‹_›, rfl⟩

theorem assemble_ok {program : List (Nat × Stmt)} {ws : List Word} (h : assemble program = .ok ws) :
    ∃ is, checkProgram .start program = .ok is ∧ ws = is.flatMap encode := by
  unfold assemble at h
  split at h <;> cases h
  exact ⟨_, ‹_›, rfl⟩

/-- One well-formed command for each statement. -/
theorem checkProgram_wf {c : AsmContext} {program : List (Nat × Stmt)} {is : List Instr}
    (h : checkProgram c program = .ok is) : is.length = program.length ∧ ∀ i ∈ is, i.wf = true := by
  induction program generalizing c is with
  | nil => cases h; simp
  | cons entry program ih =>
    obtain ⟨c', i, is', hi, hrest, rfl⟩ := checkProgram_cons h
    obtain ⟨hlen, hall⟩ := ih hrest
    exact ⟨congrArg (· + 1) hlen, List.forall_mem_cons.mpr ⟨hi.wf, hall⟩⟩

/-- A stream of encodings decodes, command after command, to the commands. -/
theorem decodeAll_flatMap_encode {is : List Instr} (hwf : ∀ i ∈ is, i.wf = true) {fuel : Nat}
    (hfuel : (is.flatMap encode).length ≤ fuel) : decodeAll fuel (is.flatMap encode) = .ok is := by
  induction is generalizing fuel with
  | nil => cases fuel <;> rfl
  | cons i is ih =>
    obtain ⟨hi, his⟩ := List.forall_mem_cons.mp hwf
    obtain ⟨w0, tail, hencode, -⟩ := encodes i
    have hdecode := decode_encode hi (is.flatMap encode)
    have hdrop : (encode i ++ is.flatMap encode).drop (encode i).length = is.flatMap encode := List.drop_left
    rw [List.flatMap_cons, hencode, List.cons_append] at hfuel ⊢
    rw [hencode, List.cons_append] at hdecode hdrop
    obtain _ | fuel := fuel
    · simp at hfuel
    · have hrest := ih his (fuel := fuel) (by simp only [List.length_cons, List.length_append] at hfuel; omega)
      simp only [decodeAll, hdecode, hencode, hdrop, hrest]

/-- Settles O56: the commands the checks give are well-formed, and their encodings decode one after another. -/
theorem wellTypedProgramsDecode : Obligations.WellTypedProgramsDecode := by
  intro program ws h
  obtain ⟨is, his, rfl⟩ := assemble_ok h
  obtain ⟨hlen, hwf⟩ := checkProgram_wf his
  exact ⟨is, rfl, hlen, hwf, decodeAll_flatMap_encode hwf le_rfl⟩

/-! The run of a well-typed program. -/

/-- The rest of a program, well-typed in context `c` with commands `is`, stands at pc; the engine the context promises is
there, and no pin is missing. -/
structure RunsProgram (c : AsmContext) (program : List (Nat × Stmt)) (is : List Instr) (s : State) : Prop where
  checked : checkProgram c program = .ok is
  stream : s.stream.drop s.pc = is.flatMap encode
  status : s.status = .run
  engine : c.engine = true → s.freq.isSome = true
  pins : ∀ p k, s.config.validPort p = true → s.config.pinImplemented p k = true

/-- The block runs the rest of a well-typed program, or has aborted. -/
def RunsOrAborted (s : State) : Prop :=
  (∃ c program is, RunsProgram c program is s) ∨ ∃ p, s.status = .abortedInvalidPort p

/-- No command takes the engine away (R27). -/
theorem micro_freq_isSome {i : Instr} {s t : State} (h : Micro i s t) (hs : s.freq.isSome = true) :
    t.freq.isSome = true := by
  cases h with
  | engine => rfl
  | read | write | result | spins => simpa using hs

/-- A well-typed command on a platform with all pins completes, with the engine its context promises, or aborts. -/
theorem exec_wellTyped {c c' : AsmContext} {i : Instr} {s t : State} (hi : WellTyped c c' i)
    (hrun : s.status = .run) (hengine : c.engine = true → s.freq.isSome = true)
    (hpins : ∀ p k, s.config.validPort p = true → s.config.pinImplemented p k = true) (h : exec i s = .next t) :
    (∃ p, t.status = .abortedInvalidPort p) ∨
      (t.status = .run ∧ t.pc = s.pc + i.opcode.len ∧ (c'.engine = true → t.freq.isSome = true)) := by
  obtain ⟨hsame, hdelay⟩ | rfl | ⟨hz, rfl⟩ := hi.engine
  · cases exec_next h with
    | completes u hu =>
      obtain ⟨-, -, hpc, hstatus⟩ := hu.fixed
      exact .inr ⟨hstatus.trans hrun, by simp [hpc], fun hc' =>
        hu.keep (P := fun v => v.freq.isSome = true) (fun _ _ => micro_freq_isSome) (hengine (hsame ▸ hc'))⟩
    | aborts p => exact .inl ⟨p, rfl⟩
    | unsupported p k _ _ hv hmissing => exact nomatch hmissing.symm.trans (hpins p k hv)
    | unconfigured hp hf => simpa [hf] using hengine (hdelay hp)
  · cases h
    exact .inr ⟨hrun, rfl, fun _ => rfl⟩
  · cases h
    exact .inr ⟨hrun, rfl, fun _ => rfl⟩

/-- A step runs the program's next command, at the end of the program there is none, and none after an abort. -/
theorem step_runsOrAborted {s t : State} (h : step s = .next t) (hs : RunsOrAborted s) : RunsOrAborted t := by
  obtain ⟨hrun, hpc, hdecoded⟩ := step_next h
  obtain ⟨c, program, is, hs⟩ | ⟨p, hp⟩ := hs
  · cases program with
    | nil =>
      cases hs.checked
      have hend : s.stream.length ≤ s.pc := List.drop_eq_nil_iff.mp hs.stream
      omega
    | cons entry program =>
      obtain ⟨c', i, is', hi, hrest, rfl⟩ := checkProgram_cons hs.checked
      have hwords : s.stream.drop s.pc = encode i ++ is'.flatMap encode := hs.stream
      have hdec : decode (s.stream.drop s.pc) = .ok i := hwords ▸ decode_encode hi.wf _
      rw [step_of_decode_ok hrun hpc hdec] at h
      obtain ⟨hconfig, hstream⟩ := ends_config_stream (exec_next h)
      obtain hab | ⟨hstatus, hpc', hengine⟩ := exec_wellTyped hi hrun hs.engine hs.pins h
      · exact .inr hab
      · refine .inl ⟨c', program, is', hrest, ?_, hstatus, hengine, by rw [hconfig]; exact hs.pins⟩
        rw [hstream, hpc', ← List.drop_drop, hwords, ← encode_length, List.drop_left]
  · exact nomatch hrun.symm.trans hp

/-- What every step keeps, every run keeps. -/
theorem run_keeps {P : State → Prop} (hstep : ∀ {s t : State}, step s = .next t → P s → P t) {n : Nat} {s t : State}
    (h : Host.Core.run Sys2Proof.core n s = .next t) (hs : P s) : P t := by
  induction n generalizing s with
  | zero => cases h; exact hs
  | succ n ih =>
    simp only [Host.Core.run] at h
    split at h
    · exact ih h (hstep ‹_› hs)
    · cases h
    · cases h

/-- Settles O57: a run keeps the rest of the program at pc well-typed, until it aborts. -/
theorem wellTypedProgramsOnlyAbort : Obligations.WellTypedProgramsOnlyAbort := by
  intro program ws s t n hassemble hstream hpc hrun hpins h
  obtain ⟨is, his, rfl⟩ := assemble_ok hassemble
  have hs : RunsProgram .start program is s := ⟨his, by rw [hpc, hstream, List.drop_zero], hrun, nofun, hpins⟩
  exact (run_keeps step_runsOrAborted h (.inl ⟨_, _, _, hs⟩)).imp_left fun ⟨_, _, _, ht⟩ => ht.status

end Sys2Proof.Proofs
end

section
/-! SUPPORT. What a pin command leaves of the other pins, and the proofs of the statements about BASE and the modify law
(40_register_access.md, R81 and R85). -/

namespace Sys2Proof.Proofs

open Sys2Proof Sys2Proof.Machine Sys2Proof.Laws

/-- Settles O21: a valid port's BASE is its result and pc's advance, and neither accesses a register. -/
theorem baseReturnsTheBaseAddress : Obligations.BaseReturnsTheBaseAddress :=
  fun _ _ hv => congrArg Host.Outcome.next (onPort_valid hv)

/-! The other pins. -/

theorem sameOtherPins_of_sameRegisters {s t : State} (h : SameRegisters s t) (p : PortId) (k : PinIdx) :
    SameOtherPins p k s t :=
  ⟨fun q r _ => h q r, fun r j _ _ _ => by rw [h p r]⟩

theorem sameOtherPins_trans {p : PortId} {k : PinIdx} {s t u : State} (hconfig : t.config = s.config)
    (hst : SameOtherPins p k s t) (htu : SameOtherPins p k t u) : SameOtherPins p k s u := by
  obtain ⟨hports, hpins⟩ := hst
  obtain ⟨hports', hpins'⟩ := htu
  refine ⟨fun q r hq => (hports' q r hq).trans (hports q r hq), fun r j hj hne himp => ?_⟩
  exact (hpins' r j hj hne (hconfig ▸ himp)).trans (hpins r j hj hne himp)

/-- A read of a stored register and a write of the word read, changed at pin `k` alone, leave the other pins: what the read
returns of an implemented pin is the stored bit (R26). -/
theorem readThenWrite_sameOtherPins (p : PortId) (k : PinIdx) (r : StoredReg) (s : State) {f : Word → Word}
    (hf : ∀ v j, j < 32 → j ≠ k.toNat → (f v).getLsbD j = v.getLsbD j) :
    SameOtherPins p k s (regWrite p r (f (regRead p (.stored r) s).1) (regRead p (.stored r) s).2) := by
  refine ⟨fun q r' hq => by simp [hq], fun r' j hj hne himp => ?_⟩
  by_cases hr : r' = r
  · subst hr
    simp [hf _ j hj hne, readValue_bit s p r' j himp]
  · simp [hr]

/-- A masked step leaves the other pins: both its masks are 0 there. -/
theorem doStep_sameOtherPins (p : PortId) (k : PinIdx) (s : State) (st : PinStep) :
    SameOtherPins p k s (doStep p k s st) := by
  unfold doStep
  split
  · exact readThenWrite_sameOtherPins p k st.1 s (f := fun v => maskedUpdate v 0 (pinMask k))
      fun v j hj hne => by simp [maskedUpdate_bit _ _ _ j hj, hne]
  · exact readThenWrite_sameOtherPins p k st.1 s (f := fun v => maskedUpdate v (pinMask k) 0)
      fun v j hj hne => by simp [maskedUpdate_bit _ _ _ j hj, hne]

theorem doSteps_sameOtherPins (p : PortId) (k : PinIdx) (steps : List PinStep) (s : State) :
    SameOtherPins p k s (doSteps p k steps s) := by
  induction steps generalizing s with
  | nil => exact sameOtherPins_of_sameRegisters (fun _ _ => rfl) p k
  | cons st rest ih => exact sameOtherPins_trans (doStep_config p k s st) (doStep_sameOtherPins p k s st) (ih _)

theorem onPin_sameOtherPins {p : PortId} {k : PinIdx} {body : State → State} {s : State}
    (hbody : SameOtherPins p k s (body s)) : SameOtherPins p k s (onPin p k body s) := by
  cases hv : s.config.validPort p with
  | false => rw [onPin_invalid hv]; exact sameOtherPins_of_sameRegisters (fun _ _ => rfl) p k
  | true =>
    cases hk : s.config.pinImplemented p k with
    | false => rw [onPin_unsupported hv hk]; exact sameOtherPins_of_sameRegisters (fun _ _ => rfl) p k
    | true => rw [onPin_valid hv hk]; exact hbody

/-- A pin command has a list of masked steps, or is TOGGLE, or writes nothing. -/
theorem pinCommand_cases {i : Instr} {p : PortId} {k : PinIdx} (hp : i.port? = some p) (hk : i.pin? = some k) :
    (∃ steps, pinSteps i = some steps) ∨ i = .toggle p k ∨ ∀ r, mayWrite i r = false := by
  cases i with
  | read | isHigh | isLow | isSetHigh | isSetLow => exact .inr (.inr fun _ => rfl)
  | toggle => cases hp; cases hk; exact .inr (.inl rfl)
  | setState _ _ level => cases level <;> exact .inl ⟨_, rfl⟩
  | base | regRead | regWrite | regModify | dcfgDefault | dcfg | delayNs | delayUs | delayMs => cases hk
  | _ => exact .inl ⟨_, rfl⟩

/-- No pin command disturbs another pin (R85). -/
theorem exec_sameOtherPins {s t : State} {i : Instr} {p : PortId} {k : PinIdx} (hp : i.port? = some p)
    (hk : i.pin? = some k) (h : exec i s = .next t) : SameOtherPins p k s t := by
  obtain ⟨steps, hs⟩ | rfl | hnone := pinCommand_cases hp hk
  · rw [exec_pinSteps hp hk hs] at h
    cases h
    exact onPin_sameOtherPins (doSteps_sameOtherPins p k steps s)
  · cases h
    exact onPin_sameOtherPins (readThenWrite_sameOtherPins p k .out s (f := fun v => v ^^^ pinMask k)
      fun v j _ hne => by simp [hne])
  · exact sameOtherPins_of_sameRegisters (fun _ r => ends_stored (exec_next h) (.inl (hnone r))) p k

/-- Settles O25: the law of one masked update at the word read, and the frame of the pin commands. -/
theorem modifyLawHoldsBitwise : Obligations.ModifyLawHoldsBitwise := by
  refine ⟨fun s p r clr set hv => ?_, fun s t i p k hp hk h => exec_sameOtherPins hp hk h⟩
  refine ⟨s.readValue p (.stored r), maskedUpdate (s.readValue p (.stored r)) clr set, _, exec_regModify hv r clr set,
    by simp, by simp, fun k hk => ?_⟩
  rw [maskedUpdate_bit _ _ _ k hk]
  refine ⟨fun hset => ?set, fun hset hclr => ?clear, fun hset hclr => ?keep, readValue_bit s p r k⟩
  case set => simp [hset]
  case clear => simp [hset, hclr]
  case keep => simp [hset, hclr]

end Sys2Proof.Proofs
end

section
/-! SUPPORT. What the steps of a pin command do, and the proofs of the statements about the constructors and the sequences
from unknown pins (41_pin_constructors.md, and R183). -/

namespace Sys2Proof.Proofs

open Sys2Proof Sys2Proof.Machine Sys2Proof.Laws

/-! The pin and the rest of the registers. -/

theorem bitAfterSteps_append (r : StoredReg) (b : Bool) (xs ys : List PinStep) :
    bitAfterSteps r b (xs ++ ys) = bitAfterSteps r (bitAfterSteps r b xs) ys := by
  induction xs generalizing b with
  | nil => rfl
  | cons st rest ih => exact ih _

/-- The bits of a pin after the steps, from the bits `b` before them. -/
def bitsAfterSteps (b : PinBits) (steps : List PinStep) : PinBits where
  dir := bitAfterSteps .dir b.dir steps
  pu  := bitAfterSteps .pu b.pu steps
  od  := bitAfterSteps .od b.od steps

/-- From `s` to `t` the pin's bits go as the steps say, and the other registers and the other implemented pins are kept. -/
structure PerformsSteps (p : PortId) (k : PinIdx) (steps : List PinStep) (s t : State) : Prop where
  config    : t.config = s.config
  bits      : ∀ r, (t.stored p r).getLsbD k.toNat = bitAfterSteps r ((s.stored p r).getLsbD k.toNat) steps
  untouched : ∀ r, (∀ st ∈ steps, st.1 ≠ r) → t.stored p r = s.stored p r
  others    : SameOtherPins p k s t

section
variable {p : PortId} {k : PinIdx} {steps : List PinStep} {s t : State}

theorem PerformsSteps.refl : PerformsSteps p k [] s s :=
  ⟨rfl, fun _ => rfl, fun _ _ => rfl, sameOtherPins_of_sameRegisters (fun _ _ => rfl) p k⟩

theorem PerformsSteps.trans {xs ys : List PinStep} {u : State} (hst : PerformsSteps p k xs s t)
    (htu : PerformsSteps p k ys t u) : PerformsSteps p k (xs ++ ys) s u where
  config := htu.config.trans hst.config
  bits r := by rw [bitAfterSteps_append, ← hst.bits, htu.bits]
  untouched r hr := by
    obtain ⟨hxs, hys⟩ := List.forall_mem_append.mp hr
    exact (htu.untouched r hys).trans (hst.untouched r hxs)
  others := sameOtherPins_trans hst.config hst.others htu.others

theorem PerformsSteps.advance (h : PerformsSteps p k steps s t) (n : Nat) : PerformsSteps p k steps s (advance n t) :=
  ⟨h.config, h.bits, h.untouched, h.others⟩

theorem PerformsSteps.pinBits (h : PerformsSteps p k steps s t) :
    t.pinBits p k = bitsAfterSteps (s.pinBits p k) steps := by
  simp [State.pinBits, bitsAfterSteps, h.bits]

theorem PerformsSteps.encodedMode (h : PerformsSteps p k steps s t) :
    t.encodedMode p k = (bitsAfterSteps (s.pinBits p k) steps).mode :=
  congrArg PinBits.mode h.pinBits

/-- One masked step performs itself: at the pin its bit is the step's, whatever the read drew for missing pins (R26). -/
theorem doStep_performs (hk : s.config.pinImplemented p k = true) (st : PinStep) :
    PerformsSteps p k [st] s (doStep p k s st) where
  config := doStep_config p k s st
  bits r := by
    rw [doStep_bit p k s st r k.toNat k.isLt hk]
    simp [bitAfterSteps, eq_comm]
  untouched r hr := doStep_other p k s st p r fun h => hr st (by simp) h.2.symm
  others := doStep_sameOtherPins p k s st

theorem doSteps_performs (hk : s.config.pinImplemented p k = true) :
    PerformsSteps p k steps s (doSteps p k steps s) := by
  induction steps generalizing s with
  | nil => exact .refl
  | cons st rest ih => exact (doStep_performs hk st).trans (ih (by simpa using hk))

/-! The accesses of the steps. -/

/-- A step is one read and one write of the word read, changed at the pin (R49). -/
theorem doStep_events (st : PinStep) : (doStep p k s st).events = s.events ++
    [.rd p (.stored st.1) (s.readValue p (.stored st.1)),
     .wr p st.1 (pinStepValue (s.readValue p (.stored st.1)) k st.2)] := by
  obtain ⟨r, b⟩ := st
  cases b with
  | false => simp [doStep, maskedUpdate_pin]
  | true => simp [doStep, maskedUpdate_pin]

theorem doSteps_shapes : ∃ evs, (doSteps p k steps s).events = s.events ++ evs ∧
    evs.map Event.shape = stepShapes p steps := by
  induction steps generalizing s with
  | nil => exact ⟨[], by simp [doSteps, stepShapes]⟩
  | cons st rest ih =>
    obtain ⟨evs, hevs, hshapes⟩ := ih (s := doStep p k s st)
    rw [doStep_events, List.append_assoc] at hevs
    exact ⟨_, hevs, by simp [hshapes, stepShapes, Event.shape]⟩

/-! What the steps leave beside the registers and the history. -/

theorem doStep_frame (st : PinStep) : (doStep p k s st).pc = s.pc ∧ (doStep p k s st).result = s.result ∧
    SamePlatform s (doStep p k s st) ∧ SameDelay s (doStep p k s st) := by
  unfold doStep
  split <;> simp [SamePlatform, SameDelay]

theorem doSteps_frame : (doSteps p k steps s).pc = s.pc ∧ (doSteps p k steps s).result = s.result ∧
    SamePlatform s (doSteps p k steps s) ∧ SameDelay s (doSteps p k steps s) := by
  induction steps generalizing s with
  | nil => simp [doSteps, SamePlatform, SameDelay]
  | cons st rest ih =>
    have hstep := doStep_frame (p := p) (k := k) (s := s) st
    have hrest := ih (s := doStep p k s st)
    simp only [SamePlatform, SameDelay] at hstep hrest ⊢
    simpa [doSteps_cons, hstep] using hrest

/-! The steps on a fully implemented port. -/

theorem doStep_stored_full (hf : s.config.fullPort p = true) (st : PinStep) (r : StoredReg) :
    (doStep p k s st).stored p r = if st.1 = r then pinStepValue (s.stored p r) k st.2 else s.stored p r := by
  split
  case isTrue h => subst h; exact (doStep_full p k s st hf).1
  case isFalse h => exact doStep_other p k s st p r fun hr => h hr.2.symm

theorem doSteps_stored_full (hf : s.config.fullPort p = true) (r : StoredReg) :
    (doSteps p k steps s).stored p r = afterSteps r (s.stored p r) k steps := by
  induction steps generalizing s with
  | nil => rfl
  | cons st rest ih => rw [doSteps_cons, ih (by simpa using hf), doStep_stored_full hf]; rfl

theorem doSteps_inputs_full (hf : s.config.fullPort p = true) : SameInputs s (doSteps p k steps s) := by
  induction steps generalizing s with
  | nil => exact ⟨rfl, rfl⟩
  | cons st rest ih =>
    obtain ⟨-, hsamples, hdraws⟩ := doStep_full p k s st hf
    obtain ⟨hsamples', hdraws'⟩ := ih (s := doStep p k s st) (by simpa using hf)
    exact ⟨hsamples'.trans hsamples, hdraws'.trans hdraws⟩

/-- The records of the steps depend on the registers they name alone. -/
theorem stepEvents_congr (h : ∀ st ∈ steps, t.stored p st.1 = s.stored p st.1) :
    stepEvents p k t steps = stepEvents p k s steps := by
  induction steps with
  | nil => rfl
  | cons st rest ih =>
    obtain ⟨hst, hrest⟩ := List.forall_mem_cons.mp h
    simp only [stepEvents, hst, ih hrest]

/-- Steps on different registers read what the registers held before the command. -/
theorem doSteps_events_full (hf : s.config.fullPort p = true) (hnodup : (steps.map fun st => st.1).Nodup) :
    (doSteps p k steps s).events = s.events ++ stepEvents p k s steps := by
  induction steps generalizing s with
  | nil => simp [doSteps, stepEvents]
  | cons st rest ih =>
    obtain ⟨hfresh, hrest⟩ := List.nodup_cons.mp hnodup
    have hkept : stepEvents p k (doStep p k s st) rest = stepEvents p k s rest := stepEvents_congr fun x hx =>
      doStep_other p k s st p x.1 fun h => hfresh (List.mem_map.mpr ⟨x, hx, h.2⟩)
    rw [doSteps_cons, ih (by simpa using hf) hrest, hkept, doStep_events, readValue_full s p st.1 hf, List.append_assoc]
    rfl

/-! The commands with a list of steps. -/

theorem exec_pinSteps_valid {i : Instr} (hp : i.port? = some p) (hpin : i.pin? = some k)
    (hs : pinSteps i = some steps) (hv : s.config.validPort p = true) (hk : s.config.pinImplemented p k = true) :
    exec i s = .next (advance 1 (doSteps p k steps s)) := by
  rw [exec_pinSteps hp hpin hs, onPin_valid hv hk]

theorem exec_pinSteps_performs {i : Instr} (hp : i.port? = some p) (hpin : i.pin? = some k)
    (hs : pinSteps i = some steps) (hv : s.config.validPort p = true) (hk : s.config.pinImplemented p k = true) :
    ∃ t, exec i s = .next t ∧ PerformsSteps p k steps s t :=
  ⟨_, exec_pinSteps_valid hp hpin hs hv hk, (doSteps_performs hk).advance 1⟩

/-- REG_MODIFY with the pin's mask to clear is the step that clears the pin's bit. -/
theorem exec_regModify_performs (hv : s.config.validPort p = true) (hk : s.config.pinImplemented p k = true)
    (r : StoredReg) : ∃ t, exec (.regModify p r (pinMask k) 0) s = .next t ∧ PerformsSteps p k [(r, false)] s t :=
  ⟨_, exec_regModify hv r (pinMask k) 0, (doStep_performs hk (r, false)).advance 3⟩

end

/-- Settles O27: the command is the fold of its steps; on a full port no read draws, and as the steps name different
registers each reads the word held before the command. -/
theorem pinCommandsPerformTheirSteps : Obligations.PinCommandsPerformTheirSteps := by
  intro s i p k steps hp hpin hs hv hf
  obtain ⟨hpc, hresult, hplatform, hdelay⟩ := doSteps_frame (p := p) (k := k) (steps := steps) (s := s)
  exact ⟨_, exec_pinSteps_valid hp hpin hs hv (fullPort_bit hf k.toNat k.isLt), doSteps_stored_full hf,
    (doSteps_sameOtherPins p k steps s).1, doSteps_events_full hf (pinSteps_nodup hs), congrArg (· + 1) hpc, hresult,
    hplatform, hdelay, doSteps_inputs_full hf⟩

/-- Settles O28: the fold of the steps performs them on any platform, at a pin that is implemented. -/
theorem pinCommandsTouchOnlyTheirPin : Obligations.PinCommandsTouchOnlyTheirPin := by
  intro s i p k steps hp hpin hs hv hk
  obtain ⟨hpc, hresult, hplatform, hdelay⟩ := doSteps_frame (p := p) (k := k) (steps := steps) (s := s)
  obtain ⟨evs, hevs, hshapes⟩ := doSteps_shapes (p := p) (k := k) (steps := steps) (s := s)
  have hperforms : PerformsSteps p k steps s (doSteps p k steps s) := doSteps_performs hk
  exact ⟨_, evs, exec_pinSteps_valid hp hpin hs hv hk, hperforms.bits, hperforms.untouched, hperforms.others, hevs,
    hshapes, congrArg (· + 1) hpc, hresult, hplatform, hdelay⟩

/-! The constructors (R91 to R95). -/

/-- The steps of the constructor of a mode. -/
def constructorSteps : Mode → List PinStep
  | .input => [(.dir, false)]
  | .inputPullUp => [(.dir, false), (.pu, true)]
  | .output => [(.dir, true)]
  | .outputOpenDrain => [(.dir, true), (.od, true)]

theorem exec_constructorInstr_performs {s : State} {p : PortId} {k : PinIdx} (mode : Mode)
    (hv : s.config.validPort p = true) (hk : s.config.pinImplemented p k = true) :
    ∃ t, exec (constructorInstr mode p k) s = .next t ∧ PerformsSteps p k (constructorSteps mode) s t := by
  cases mode <;> exact exec_pinSteps_performs rfl rfl rfl hv hk

theorem constructorSteps_ne_out (mode : Mode) : ∀ st ∈ constructorSteps mode, st.1 ≠ .out := by
  cases mode <;> decide

theorem constructorSteps_ne_pu {mode : Mode} (h : mode ≠ .inputPullUp) : ∀ st ∈ constructorSteps mode, st.1 ≠ .pu := by
  revert h; cases mode <;> decide

theorem constructorSteps_ne_od {mode : Mode} (h : mode ≠ .outputOpenDrain) :
    ∀ st ∈ constructorSteps mode, st.1 ≠ .od := by
  revert h; cases mode <;> decide

/-- The direction bit is the mode's, whatever the bits before. -/
theorem constructorSteps_dir (mode : Mode) (b : PinBits) :
    (bitsAfterSteps b (constructorSteps mode)).dir = true ↔ mode ∈ [Mode.output, Mode.outputOpenDrain] := by
  cases mode <;> simp [constructorSteps, bitsAfterSteps, bitAfterSteps]

theorem constructorSteps_mode (mode : Mode) {b : PinBits} (hpu : b.pu = false) (hod : b.od = false) :
    (bitsAfterSteps b (constructorSteps mode)).mode = some mode := by
  cases mode <;> simp [constructorSteps, bitsAfterSteps, bitAfterSteps, PinBits.mode, hpu, hod]

/-- Settles O29: which registers the constructor's steps name, and where they take the pin's bits. -/
theorem constructorsReachTheirMode : Obligations.ConstructorsReachTheirMode := by
  intro s mode p k hv hk
  obtain ⟨t, hexec, h⟩ := exec_constructorInstr_performs mode hv hk
  refine ⟨t, hexec, h.others, h.untouched .out (constructorSteps_ne_out mode),
    fun hne => h.untouched .pu (constructorSteps_ne_pu hne), fun hne => h.untouched .od (constructorSteps_ne_od hne),
    ?dir, fun hpu hod => ?mode⟩
  case dir => rw [h.pinBits, constructorSteps_dir]
  case mode => rw [h.encodedMode, constructorSteps_mode mode hpu hod]

/-! The sequences of R183. -/

/-- Settles O33: each sequence performs its commands' steps one after another, and those leave all three bits 0 from any
bits. -/
theorem unknownPinReachesInput : Obligations.UnknownPinReachesInput := by
  intro s p k hv hk
  refine ⟨?commands, ?modifies⟩
  case commands =>
    obtain ⟨a, ha, hsa⟩ := exec_pinSteps_performs (i := .mkInputPu p k) rfl rfl rfl hv hk
    rw [← hsa.config] at hv hk
    obtain ⟨b, hb, hab⟩ := exec_pinSteps_performs (i := .intoInputFromIpu p k) rfl rfl rfl hv hk
    rw [← hab.config] at hv hk
    obtain ⟨c, hc, hbc⟩ := exec_pinSteps_performs (i := .mkOutputOd p k) rfl rfl rfl hv hk
    rw [← hbc.config] at hv hk
    obtain ⟨d, hd, hcd⟩ := exec_pinSteps_performs (i := .intoInputFromOod p k) rfl rfl rfl hv hk
    have h := ((hsa.trans hab).trans hbc).trans hcd
    exact ⟨a, b, c, d, ha, hb, hc, hd, h.encodedMode, h.others⟩
  case modifies =>
    obtain ⟨a, ha, hsa⟩ := exec_regModify_performs hv hk .pu
    rw [← hsa.config] at hv hk
    obtain ⟨b, hb, hab⟩ := exec_regModify_performs hv hk .od
    rw [← hab.config] at hv hk
    obtain ⟨c, hc, hbc⟩ := exec_regModify_performs hv hk .dir
    have h := (hsa.trans hab).trans hbc
    exact ⟨a, b, c, ha, hb, hc, h.encodedMode, h.others⟩

end Sys2Proof.Proofs
end

section
/-! SUPPORT. The bits of a pin after each write of a command, and the proofs of the statements about the transitions
(42_pin_transitions.md). -/

namespace Sys2Proof.Proofs

open Sys2Proof Sys2Proof.Machine Sys2Proof.Laws

/-! The trace of the steps. -/

/-- The bits of a pin after each of the steps, from the bits `b` before them. -/
def stepsTrace (b : PinBits) : List PinStep → List PinBits
  | [] => []
  | st :: rest => bitsAfterSteps b [st] :: stepsTrace (bitsAfterSteps b [st]) rest

/-- What the history shows of a step's write is what the step does: the word written has the step's bit at the pin, whatever
word was read. -/
theorem afterWrite_pinStepValue (b : PinBits) (v : Word) (k : PinIdx) (st : PinStep) :
    b.afterWrite st.1 (pinStepValue v k st.2) k = bitsAfterSteps b [st] := by
  have hbit : (pinStepValue v k st.2).getLsbD k.toNat = st.2 := by
    cases h : st.2 <;> simp [pinStepValue]
  obtain ⟨r, set⟩ := st
  cases r <;> simp [PinBits.afterWrite, bitsAfterSteps, bitAfterSteps, hbit]

/-- The records of the steps trace the pin through the steps (R114). -/
theorem doSteps_trace (p : PortId) (k : PinIdx) (steps : List PinStep) (s : State) :
    ∃ evs, (doSteps p k steps s).events = s.events ++ evs ∧ ∀ b, pinTrace p k b evs = stepsTrace b steps := by
  induction steps generalizing s with
  | nil => exact ⟨[], by simp [doSteps], fun _ => rfl⟩
  | cons st rest ih =>
    obtain ⟨evs, hevs, htrace⟩ := ih (doStep p k s st)
    rw [doStep_events, List.append_assoc] at hevs
    exact ⟨_, hevs, fun b => by simp [pinTrace, stepsTrace, afterWrite_pinStepValue, htrace]⟩

/-! The transitions (R102 to R114). -/

/-- The bits that encode a mode (R34). -/
def modeBits : Mode → PinBits
  | .input => ⟨false, false, false⟩
  | .inputPullUp => ⟨false, true, false⟩
  | .output => ⟨true, false, false⟩
  | .outputOpenDrain => ⟨true, false, true⟩

theorem mode_eq_some_iff (b : PinBits) (m : Mode) : b.mode = some m ↔ b = modeBits m := by
  obtain ⟨dir, pu, od⟩ := b
  cases m <;> revert dir pu od <;> decide

/-- A transition is a pin command whose steps take the source's bits along the table of R114 to the target's. -/
theorem transitionTo_steps {source target : Mode} {p : PortId} {k : PinIdx} {i : Instr}
    (h : transitionTo target source p k = some i) :
    i.port? = some p ∧ i.pin? = some k ∧ ∃ steps, pinSteps i = some steps ∧
      stepsTrace (modeBits source) steps = transitionTrace source target ∧
      bitsAfterSteps (modeBits source) steps = modeBits target := by
  cases target <;> cases source <;> cases h <;> exact ⟨rfl, rfl, _, rfl, rfl, rfl⟩

theorem transitionTrace_consistent (source target : Mode) : ∀ b ∈ transitionTrace source target, b.consistent = true := by
  cases source <;> cases target <;> decide

/-- Settles O30: the history traces the transition's steps, and from the source's bits these go along the table of R114. -/
theorem transitionsStayConsistent : Obligations.TransitionsStayConsistent := by
  intro s source target p k i hi hv hk hmode
  have hbits : s.pinBits p k = modeBits source := (mode_eq_some_iff _ _).mp hmode
  obtain ⟨hp, hpin, steps, hs, htable, hend⟩ := transitionTo_steps hi
  obtain ⟨evs, hevs, htrace⟩ := doSteps_trace p k steps s
  have hperforms : PerformsSteps p k steps s (advance 1 (doSteps p k steps s)) := (doSteps_performs hk).advance 1
  refine ⟨_, evs, exec_pinSteps_valid hp hpin hs hv hk, hevs, ?trace, transitionTrace_consistent source target, ?target⟩
  case trace => rw [htrace, hbits, htable]
  case target => rw [hperforms.encodedMode, hbits, hend, (mode_eq_some_iff _ _).mpr rfl]

/-! Output again (R116). -/

section
variable {p : PortId} {k : PinIdx} {steps : List PinStep} {s t : State}

/-- The steps at any implemented pin's bit: the pin goes as they say, another pin is kept. -/
theorem PerformsSteps.stored_bit (h : PerformsSteps p k steps s t) (r : StoredReg) {j : Nat} (hj : j < 32)
    (himp : (s.config.implemented p).getLsbD j = true) : (t.stored p r).getLsbD j =
      if j = k.toNat then bitAfterSteps r ((s.stored p r).getLsbD j) steps else (s.stored p r).getLsbD j := by
  split
  case isTrue hjk => rw [hjk]; exact h.bits r
  case isFalse hjk => exact h.others.2 r j hj hjk himp

/-- Steps that leave the pin's bit of a register at what it was leave all the register's implemented bits so. -/
theorem PerformsSteps.stored_implemented (h : PerformsSteps p k steps s t) {r : StoredReg}
    (hr : bitAfterSteps r ((s.stored p r).getLsbD k.toNat) steps = (s.stored p r).getLsbD k.toNat) :
    t.stored p r &&& s.config.implemented p = s.stored p r &&& s.config.implemented p := by
  apply BitVec.eq_of_getLsbD_eq
  intro j hj
  cases himp : (s.config.implemented p).getLsbD j with
  | false => simp [himp]
  | true =>
    have hbit : (t.stored p r).getLsbD j = (s.stored p r).getLsbD j := by
      rw [h.stored_bit r hj himp]
      split
      case isTrue hjk => rw [hjk]; exact hr
      case isFalse => rfl
    simp [hbit]

/-- On a fully implemented port a step that sets the pin's bit leaves the word with the pin's mask set. -/
theorem PerformsSteps.stored_set_full {r : StoredReg} (h : PerformsSteps p k [(r, true)] s t)
    (hf : s.config.fullPort p = true) : t.stored p r = s.stored p r ||| pinMask k := by
  apply BitVec.eq_of_getLsbD_eq
  intro j hj
  rw [h.stored_bit r hj (fullPort_bit hf j hj)]
  by_cases hjk : j = k.toNat <;> simp [bitAfterSteps, hjk]

end

/-- On a fully implemented port the implemented part of a word is the word. -/
theorem and_implemented_full {c : Config} {p : PortId} (hf : c.fullPort p = true) (v : Word) :
    v &&& c.implemented p = v := by
  have hall : c.implemented p = BitVec.allOnes 32 := by simpa [Config.fullPort] using hf
  rw [hall, BitVec.and_allOnes]

/-- Settles O32: the two transitions clear the DIR bit that MK_OUTPUT set and set it again, and name no other register. -/
theorem reentryEqualsFreshOutput : Obligations.ReentryEqualsFreshOutput := by
  intro s p k hv hk
  obtain ⟨a, ha, hsa⟩ := exec_pinSteps_performs (i := .mkOutput p k) rfl rfl rfl hv hk
  rw [← hsa.config] at hv hk
  obtain ⟨b, hb, hab⟩ := exec_pinSteps_performs (i := .intoInputFromOut p k) rfl rfl rfl hv hk
  rw [← hab.config] at hv hk
  obtain ⟨c, hc, hbc⟩ := exec_pinSteps_performs (i := .intoOutputFromIn p k) rfl rfl rfl hv hk
  have hac : PerformsSteps p k [(.dir, false), (.dir, true)] a c := hab.trans hbc
  have hsc := hsa.trans hac
  have hdir : c.stored p .dir &&& s.config.implemented p = a.stored p .dir &&& s.config.implemented p := by
    rw [← hsa.config]
    exact hac.stored_implemented (hsa.bits .dir).symm
  refine ⟨a, b, c, ha, hb, hc, hsc.bits .dir, hsa.others, hsc.others, hdir, fun hf => ?full⟩
  case full =>
    have hword : c.stored p .dir = a.stored p .dir := by simpa only [and_implemented_full hf] using hdir
    refine ⟨hword, hsa.stored_set_full hf, fun q r => ?registers⟩
    case registers =>
      by_cases hq : q = p
      · subst hq
        by_cases hr : r = .dir
        · rw [hr, hword]
        · exact hac.untouched r (by simpa [eq_comm] using hr)
      · exact hac.others.1 q r hq

end Sys2Proof.Proofs
end

section
/-! SUPPORT. What TOGGLE writes and what a test of a stored pin returns, and the proofs of the statements about pin output
(43_pin_io.md, R123 to R128). -/

namespace Sys2Proof.Proofs

open Sys2Proof Sys2Proof.Machine Sys2Proof.Laws

section
variable {p : PortId} {k : PinIdx} {s t : State}

/-! TOGGLE (R126). -/

theorem exec_toggle (hv : s.config.validPort p = true) (hk : s.config.pinImplemented p k = true) :
    exec (.toggle p k) s = .next
      (advance 1 (regWrite p .out (s.readValue p (.stored .out) ^^^ pinMask k) (regRead p (.stored .out) s).2)) :=
  congrArg Host.Outcome.next (onPin_valid hv hk)

theorem exec_toggle_sameRegistersBut (h : exec (.toggle p k) s = .next t) : SameRegistersBut p .out s t := by
  intro q r hother
  by_cases hq : q = p
  · exact ends_stored (exec_next h) (.inl (beq_false_of_ne fun hr => hother ⟨hq, hr⟩))
  · exact ends_stored (exec_next h) (.inr fun hp => hq (Option.some.inj hp).symm)

/-- TOGGLE completes and inverts an implemented pin's bit, since what it reads there is the stored bit (R26). -/
theorem exec_toggle_inverts (hv : s.config.validPort p = true) (hk : s.config.pinImplemented p k = true) :
    ∃ t, exec (.toggle p k) s = .next t ∧ t.config = s.config ∧ t.pc = s.pc + 1 ∧
      (t.stored p .out).getLsbD k.toNat = !(s.stored p .out).getLsbD k.toNat :=
  ⟨_, exec_toggle hv hk, by simp, by simp, by simp [readValue_bit s p .out k.toNat hk]⟩

/-! A test of a stored pin (R127, R128). -/

/-- At an implemented pin the level read is the stored one, whatever is drawn for missing pins (R26). -/
theorem levelOf_readValue (hk : s.config.pinImplemented p k = true) (r : StoredReg) :
    levelOf (s.readValue p (.stored r)) k = levelOf (s.stored p r) k := by
  rw [levelOf_eq, levelOf_eq, readValue_bit s p r k.toNat hk]

theorem testPin_stored (hv : s.config.validPort p = true) (hk : s.config.pinImplemented p k = true) (r : StoredReg)
    (test : Level → Bool) : testPin p (.stored r) k test s =
      advance 1 (setResult (boolToWord (test (levelOf (s.stored p r) k))) (regRead p (.stored r) s).2) := by
  rw [testPin, onPin_valid hv hk, ← levelOf_readValue hk]
  rfl

theorem exec_isSetHigh (hv : s.config.validPort p = true) (hk : s.config.pinImplemented p k = true) :
    exec (.isSetHigh p k) s = .next (advance 1
      (setResult (if (s.stored p .out).getLsbD k.toNat then 1 else 0) (regRead p (.stored .out) s).2)) := by
  rw [← boolToWord_high]
  exact congrArg Host.Outcome.next (testPin_stored hv hk .out _)

theorem exec_isSetLow (hv : s.config.validPort p = true) (hk : s.config.pinImplemented p k = true) :
    exec (.isSetLow p k) s = .next (advance 1
      (setResult (if (s.stored p .out).getLsbD k.toNat then 0 else 1) (regRead p (.stored .out) s).2)) := by
  rw [← boolToWord_low]
  exact congrArg Host.Outcome.next (testPin_stored hv hk .out _)

/-! Setting a level (R123 to R125). -/

/-- Both ways to set a level are one step on OUT. -/
theorem setLevel_steps {i : Instr} {m : Mode} {level : Level}
    (hi : i = .setState p m level k ∨ i = (if level = .high then .setHigh p m k else .setLow p m k)) :
    i.port? = some p ∧ i.pin? = some k ∧ pinSteps i = some [(.out, level == .high)] := by
  cases level <;> obtain rfl | rfl := hi <;> exact ⟨rfl, rfl, rfl⟩

end

/-- Settles O35: on a full port the word read is the stored one, and the read draws nothing. -/
theorem toggleInvertsThePin : Obligations.ToggleInvertsThePin := by
  intro s p k hv hf
  have hexec := exec_toggle hv (fullPort_bit hf k.toNat k.isLt)
  rw [readValue_full s p .out hf, regRead_stored_full hf] at hexec
  exact ⟨_, hexec, by simp, exec_toggle_sameRegistersBut hexec, by simp, rfl, rfl, ⟨rfl, rfl, rfl⟩, ⟨rfl, rfl, rfl⟩,
    ⟨rfl, rfl⟩⟩

/-- Settles O36: each TOGGLE inverts the bit, and two inversions cancel. -/
theorem twoTogglesRestoreThePin : Obligations.TwoTogglesRestoreThePin := by
  intro s p k hv hk
  obtain ⟨a, ha, hconfig, hpca, hbita⟩ := exec_toggle_inverts hv hk
  rw [← hconfig] at hv hk
  obtain ⟨b, hb, -, hpcb, hbitb⟩ := exec_toggle_inverts hv hk
  have hothers : SameOtherPins p k s a := exec_sameOtherPins rfl rfl ha
  have hregs : SameRegistersBut p .out s b := fun q r hother =>
    (exec_toggle_sameRegistersBut hb q r hother).trans (exec_toggle_sameRegistersBut ha q r hother)
  refine ⟨a, b, ha, hb, hbita, ?bit, hothers, sameOtherPins_trans hconfig hothers (exec_sameOtherPins rfl rfl hb), hregs,
    ends_result (exec_next ha) rfl, ?pc⟩
  case bit => rw [hbitb, hbita, Bool.not_not]
  case pc => rw [hpcb, hpca]

/-- Settles O37: both commands are one read of OUT and one result, and only the result differs. -/
theorem introspectionReturnsTheStoredLevel : Obligations.IntrospectionReturnsTheStoredLevel := by
  intro s p k i v hv hk hi
  have hexec : exec i s = .next (advance 1 (setResult v (regRead p (.stored .out) s).2)) := by
    obtain ⟨rfl, rfl⟩ | ⟨rfl, rfl⟩ := hi
    · exact exec_isSetHigh hv hk
    · exact exec_isSetLow hv hk
  refine ⟨_, s.readValue p (.stored .out), hexec, rfl, by simp, readValue_implemented s p .out, fun hf => ?full, by simp,
    fun q r => by simp, by simp [SamePlatform], by simp [SameDelay]⟩
  case full =>
    rw [regRead_stored_full hf]
    exact ⟨readValue_full s p .out hf, rfl, rfl⟩

/-- Settles O38: the step on OUT leaves the pin's bit at the level, and IS_SET_HIGH returns that bit. -/
theorem setLevelIsReadBack : Obligations.SetLevelIsReadBack := by
  intro s p m k level i hv hk hi
  obtain ⟨hp, hpin, hs⟩ := setLevel_steps hi
  obtain ⟨a, ha, hperforms⟩ := exec_pinSteps_performs hp hpin hs hv hk
  have hbit : (a.stored p .out).getLsbD k.toNat = (level == .high) := hperforms.bits .out
  rw [← hperforms.config] at hv hk
  exact ⟨a, _, ha, exec_isSetHigh hv hk, by simp [hbit]⟩

end Sys2Proof.Proofs
end

section
/-! SUPPORT. What the cycle counts are, what a spin and its loop do, and the proofs of the statements about the delay
counter (44_delay.md, R140 to R150). -/

namespace Sys2Proof.Proofs

open Sys2Proof Sys2Proof.Machine Sys2Proof.Laws

/-! The cycle counts (R142). -/

theorem product_le (n f : Word) : n.toNat * f.toNat ≤ (2 ^ 32 - 1) * (2 ^ 32 - 1) :=
  Nat.mul_le_mul (by omega) (by omega)

theorem cyclesNs_toNat (n f : Word) : (cyclesNs n f).toNat = n.toNat * f.toNat / 1000000000 := by
  rw [cyclesNs, BitVec.toNat_udiv, product_toNat]
  rfl

theorem cyclesUs_toNat (n f : Word) : (cyclesUs n f).toNat = n.toNat * f.toNat / 1000000 := by
  rw [cyclesUs, BitVec.toNat_udiv, product_toNat]
  rfl

/-- The clamped count of one of DELAY_MS's spins: 1000 us at f is f/1000 iterations (R147). -/
theorem clampCount_millisecond (f : Word) : (clampCount (cyclesUs 1000 f)).toNat = max 1 (f.toNat / 1000) := by
  have hms : 1000 * f.toNat / 1000000 = f.toNat / 1000 := Nat.mul_div_mul_left f.toNat 1000 (by decide)
  rw [clampCount_toNat, cyclesUs_toNat, ← hms]
  rfl

/-- Settles O41: the division is of the exact product, and a floor is largest at the largest product. -/
theorem cycleCountsAreExact : Obligations.CycleCountsAreExact := by
  refine ⟨fun n f => ⟨cyclesNs_toNat n f, cyclesUs_toNat n f, ?ns, ?us⟩, ?nsMax, ?usMax⟩
  case ns => exact (cyclesNs_toNat n f).trans_le (Nat.div_le_div_right (product_le n f))
  case us => exact (cyclesUs_toNat n f).trans_le (Nat.div_le_div_right (product_le n f))
  case nsMax => exact cyclesNs_toNat _ _
  case usMax => exact cyclesUs_toNat _ _

/-! The spin and its loop (R144, R147). -/

/-- The saturating decrement of a count that is not 0 does not saturate. -/
theorem satDec_toNat {c : Count} (hc : c ≠ 0) : (satDec c).toNat + 1 = c.toNat := by
  have hpos : 1 ≤ c.toNat := Nat.one_le_iff_ne_zero.mpr fun h => hc (BitVec.eq_of_toNat_eq h)
  have hle : (1 : Count) ≤ c := hpos
  rw [satDec, if_pos hpos, BitVec.toNat_sub_of_le hle]
  exact Nat.sub_add_cancel hpos

/-- With as much fuel as CNT holds, the loop runs CNT out. -/
theorem spinLoop_eq_spin {fuel : Nat} {s : State} (hfuel : s.cnt.toNat = fuel) : spinLoop fuel s = spin s.cnt s := by
  induction fuel generalizing s with
  | zero =>
    have hcnt : s.cnt = 0 := BitVec.eq_of_toNat_eq hfuel
    simp [spinLoop, spin, hfuel, ← hcnt]
  | succ fuel ih =>
    have hcnt : s.cnt ≠ 0 := fun h => by simp [h] at hfuel
    have hdec : (satDec s.cnt).toNat = fuel := Nat.succ.inj ((satDec_toNat hcnt).trans hfuel)
    rw [spinLoop, if_neg hcnt, ih hdec]
    simp [spin, tick, hdec, hfuel, Nat.add_assoc, Nat.add_comm 1]

theorem spinByLoop_eq_spin (c : Count) (s : State) : spinByLoop c s = spin c s :=
  spinLoop_eq_spin rfl

/-- The whole state after n spins of c: CNT is kept only where no spin runs (R147). -/
theorem spinTimes_eq (n : Nat) (c : Count) (s : State) : spinTimes n c s =
    { s with ticks := s.ticks + n * c.toNat, cnt := if n = 0 then s.cnt else 0 } := by
  cases n with
  | zero => simp [spinTimes]
  | succ n => simp [spinTimes]

theorem spinTimes_spin (n : Nat) (c : Count) (s : State) : spinTimes n c (spin c s) = spinTimes (n + 1) c s := by
  have hticks : s.ticks + c.toNat + n * c.toNat = s.ticks + (n + 1) * c.toNat := by ring
  simp [spinTimes_eq, spin, hticks]

theorem spinTimesByLoop_eq_spinTimes (n : Nat) (c : Count) (s : State) : spinTimesByLoop n c s = spinTimes n c s := by
  induction n generalizing s with
  | zero => rfl
  | succ n ih => rw [spinTimesByLoop, spinByLoop_eq_spin, ih, spinTimes_spin]

/-- Settles O43: the loop with CNT loaded runs it out, one exact decrement after another. -/
theorem spinIsItsLoop : Obligations.SpinIsItsLoop := by
  refine ⟨fun s c => ?_, fun c => satDec_toNat⟩
  rw [spinByLoop_eq_spin]
  exact ⟨rfl, rfl, rfl⟩

/-! The engine (R140, R141, R163). -/

theorem withEngine_some {body : Word → State → State} {s : State} {f : Word} (hf : s.freq = some f) :
    withEngine body s = body f s := by
  rw [withEngine, hf]

theorem withEngine_none {body : Word → State → State} {s : State} (hf : s.freq = none) :
    withEngine body s = faultDelayUnconfigured s := by
  rw [withEngine, hf]

/-- Settles O40: each command is one write of FREQ and the advance. -/
theorem engineConstructionSetsFreq : Obligations.EngineConstructionSetsFreq :=
  fun _ _ => ⟨rfl, rfl⟩

/-- Settles O14: each delay asks for the frequency before anything else, and a fault is not STATUS `Run`. -/
theorem delayWithoutEngineFaults : Obligations.DelayWithoutEngineFaults := by
  intro s n i hf hi
  have hexec : exec i s = .next (faultDelayUnconfigured s) := by
    simp only [List.mem_cons, List.not_mem_nil, or_false] at hi
    obtain rfl | rfl | rfl := hi
    · exact congrArg Host.Outcome.next (withEngine_none hf)
    · exact congrArg Host.Outcome.next (withEngine_none hf)
    · exact congrArg Host.Outcome.next (withEngine_none hf)
  exact ⟨_, hexec, rfl, rfl⟩

/-! The delays (R143, R145 to R148). -/

section
variable {s : State} {f : Word} (hf : s.freq = some f) (n : Word)
include hf

theorem exec_delayNs : exec (.delayNs n) s = .next (advance 2 (spin (clampCount (cyclesNs n f)) s)) :=
  congrArg Host.Outcome.next (withEngine_some hf)

theorem exec_delayUs : exec (.delayUs n) s = .next (advance 2 (spin (clampCount (cyclesUs n f)) s)) :=
  congrArg Host.Outcome.next (withEngine_some hf)

theorem exec_delayMs :
    exec (.delayMs n) s = .next (advance 2 (spinTimes n.toNat (clampCount (cyclesUs 1000 f)) s)) :=
  congrArg Host.Outcome.next (withEngine_some hf)

end

/-- Settles O44: one spin of the clamped floor. -/
theorem delayNsCountsTheFloor : Obligations.DelayNsCountsTheFloor := by
  intro s n f hf
  rw [exec_delayNs hf, ← cyclesNs_toNat, ← clampCount_toNat]
  rfl

/-- Settles O45: one spin of the clamped floor. -/
theorem delayUsCountsTheFloor : Obligations.DelayUsCountsTheFloor := by
  intro s n f hf
  rw [exec_delayUs hf, ← cyclesUs_toNat, ← clampCount_toNat]
  rfl

/-- Settles O42: at n = 0 both floors are 0, and the clamp makes one tick of them. -/
theorem clampIsUnconditional : Obligations.ClampIsUnconditional := by
  refine ⟨fun c => (clampCount_toNat c).trans (max_comm ..), fun s f i hf hi => ?_⟩
  simp only [List.mem_cons, List.not_mem_nil, or_false] at hi
  obtain rfl | rfl := hi
  · simpa using delayNsCountsTheFloor s 0 f hf
  · simpa using delayUsCountsTheFloor s 0 f hf

/-- Settles O46: the n loops are n spins of the clamped f/1000. -/
theorem delayMsRepeatsOneMillisecond : Obligations.DelayMsRepeatsOneMillisecond := by
  intro s n f hf
  have hzero : n.toNat = 0 ↔ n = 0 := BitVec.toNat_inj (y := 0)
  refine ⟨?loops, ?atLeastOne, ?next, Nat.le_mul_of_pos_right _ (by simp)⟩
  case loops => rw [exec_delayMs hf, spinTimesByLoop_eq_spinTimes]
  case atLeastOne => simp [clampCount_toNat]
  case next =>
    rw [exec_delayMs hf, spinTimes_eq, clampCount_millisecond]
    simp only [hzero, advance]

end Sys2Proof.Proofs
end

section
/-! SUPPORT. Which check every command that names a port makes first, and the proofs of the statements about the outcomes
(60_exceptions.md, R160 to R162). -/

namespace Sys2Proof.Proofs

open Sys2Proof Sys2Proof.Machine Sys2Proof.Laws

/-! The checks before the body of a command (R80). -/

/-- A command that names a pin is some body after `CheckPin`. -/
theorem exec_onPin {i : Instr} {p : PortId} {k : PinIdx} (hp : i.port? = some p) (hk : i.pin? = some k) :
    ∃ body, ∀ s, exec i s = .next (onPin p k body s) := by
  cases i with
  | base | regRead | regWrite | regModify | dcfgDefault | dcfg | delayNs | delayUs | delayMs => cases hk
  | _ => cases hp; cases hk; exact ⟨_, fun _ => rfl⟩

/-- A command that names a port is some body after the check of the port. -/
theorem exec_onPort {i : Instr} {p : PortId} (hp : i.port? = some p) :
    ∃ body, ∀ s, exec i s = .next (onPort p body s) := by
  cases hk : i.pin? with
  | some k =>
    obtain ⟨body, hexec⟩ := exec_onPin hp hk
    exact ⟨_, hexec⟩
  | none =>
    cases i with
    | base | regRead | regWrite | regModify => cases hp; exact ⟨_, fun _ => rfl⟩
    | dcfgDefault | dcfg | delayNs | delayUs | delayMs => cases hp
    | _ => cases hk

theorem exec_unsupportedPin {i : Instr} {p : PortId} {k : PinIdx} {s : State} (hp : i.port? = some p)
    (hk : i.pin? = some k) (hv : s.config.validPort p = true) (himp : s.config.pinImplemented p k = false) :
    exec i s = .next (refuse .unsupportedPin s) := by
  obtain ⟨body, hexec⟩ := exec_onPin hp hk
  rw [hexec, onPin_unsupported hv himp]

theorem exec_invalidPort {i : Instr} {p : PortId} {s : State} (hp : i.port? = some p)
    (hv : s.config.validPort p = false) : exec i s = .next (abortInvalidPort p s) := by
  obtain ⟨body, hexec⟩ := exec_onPort hp
  rw [hexec, onPort_invalid hv]

/-! A stopped block (R160, R181). -/

theorem complete_of_stopped {s : State} (h : s.status ≠ .run) : s.complete = false := by
  simp [State.complete, h]

theorem status_code_of_stopped {st : Status} (h : st ≠ .run) : ∃ code, st.code = some code := by
  cases st with
  | run => exact absurd rfl h
  | refused why => cases why <;> exact ⟨_, rfl⟩
  | abortedInvalidPort | faultedDelayUnconfigured => exact ⟨_, rfl⟩

/-- A step that ends the run moves neither pc nor the stream, and a word stands at pc. -/
theorem step_stops_at {s t : State} (h : step s = .next t) (hstop : t.status ≠ .run) :
    t.pc = s.pc ∧ t.stream = s.stream ∧ s.pc < s.stream.length := by
  obtain ⟨-, hpc, -⟩ := step_next h
  obtain ⟨-, hstream, -⟩ := stepKeepsPlatformStreamAndPast s t h
  obtain ⟨hrun, -⟩ | ⟨-, hstay⟩ := pcAdvancesByCommandLength s t h
  · exact absurd hrun hstop
  · exact ⟨hstay, hstream, hpc⟩

/-- The record of a step that ends the run: the code of its STATUS, and the command's pc and first word. -/
theorem step_stopRecord {s t : State} {code : BitVec 8} {w0 : Word} (h : step s = .next t)
    (hcode : t.status.code = some code) (hstop : t.status ≠ .run) (hw0 : s.stream[s.pc]? = some w0) :
    t.stopRecord = some { code := code, pc := s.pc, w0 := some w0 } := by
  obtain ⟨hpc, hstream, -⟩ := step_stops_at h hstop
  rw [State.stopRecord, hcode, hpc, hstream, hw0]
  rfl

/-! The statements. -/

/-- Settles O12: both refusals are `refuse`, which sets STATUS only, and not to `Run`. -/
theorem refusalOnlySetsStatus : Obligations.RefusalOnlySetsStatus :=
  ⟨fun _ _ => step_of_decode_error, fun _ _ _ _ => exec_unsupportedPin, fun _ _ => complete_of_stopped nofun⟩

/-- Settles O13: the port is checked before the body of the command, and the abort is not STATUS `Run`. -/
theorem invalidPortAborts : Obligations.InvalidPortAborts := by
  intro s i p hp hv
  have hstop : (abortInvalidPort p s).status ≠ .run := nofun
  exact ⟨_, exec_invalidPort hp hv, rfl, terminalStatusHasNoStep _ hstop, complete_of_stopped hstop⟩

/-- Settles O17: pc and the stream stay where the step fetched, and each STATUS but `Run` has its code. -/
theorem stoppedBlockRecordsItsCommand : Obligations.StoppedBlockRecordsItsCommand := by
  intro s t hstep hstop
  obtain ⟨-, -, hpc⟩ := step_stops_at hstep hstop
  have hw0 : s.stream[s.pc]? = some s.stream[s.pc] := List.getElem?_eq_getElem hpc
  obtain ⟨code, hcode⟩ := status_code_of_stopped hstop
  refine ⟨code, _, step_stopRecord hstep hcode hstop hw0, hw0, ?_⟩
  generalize t.status = st at hcode
  cases st with
  | run => cases hcode
  | abortedInvalidPort p => cases hcode; exact .inl ⟨rfl, p, rfl⟩
  | refused why => cases why <;> cases hcode <;> simp
  | faultedDelayUnconfigured => cases hcode; simp

end Sys2Proof.Proofs
end

section
/-! SUPPORT. What the stored registers hold right after reset, and the proof of the statement about reset
(70_reset_and_hazards.md, R180). -/

namespace Sys2Proof.Proofs

open Sys2Proof Sys2Proof.Machine Sys2Proof.Laws

/-- The registers of a valid port at reset are the four parameters of its entry (R7). -/
theorem resetRegs_of_portConfig {c : Config} {p : PortId} {q : PortConfig} (h : c.portConfig p = some q) :
    c.resetRegs p = { dir := q.resetDir, out := q.resetOut, od := q.resetOd, pu := q.resetPu } := by
  simp [Config.resetRegs, h]

/-- Reset lists no register set, so every port reads as its reset set. -/
@[simp] theorem resetWith_stored (c : Config) (p : PortId) (r : StoredReg) :
    (State.resetWith c).stored p r = (c.resetRegs p).get r := rfl

/-- Settles O20: an unlisted port reads as its reset set, the other fields are reset's own, and from a terminal STATUS
step faults instead of answering a next state. -/
theorem resetLeavesTheStatedValues : Obligations.ResetLeavesTheStatedValues := by
  refine ⟨fun c => ⟨fun p q hport => ?registers, rfl, rfl, rfl, rfl, rfl, rfl, rfl, rfl⟩, fun s hstop t => ?noStep⟩
  case registers =>
    simp [resetRegs_of_portConfig hport, PortRegs.get]
  case noStep =>
    rw [terminalStatusHasNoStep s hstop]
    exact nofun

end Sys2Proof.Proofs
end
